-- ==== Sys2Proof/Word.lean ====
section
/-! DEFINITION. The word types of the machine: a byte, a 32-bit instruction or CSR word, and the
64-bit word in which an integer register, an address and the pc are held for either XLEN. -/

namespace Sys2Proof

/-- One byte: a tensor element (`ELEMENT_SIZE = 8`, 00_scope.md R9) or a byte of memory (R42). -/
abbrev Byte := BitVec 8

/-- A 32-bit word: an instruction (30_encoding.md R70), a CSR (10_state.md R31), a descriptor (R18). -/
abbrev Word32 := BitVec 32

/-- An integer register, an address or the pc, `XLEN` bits wide (10_state.md R21, R23). It is held in
64 bits for both values of `XLEN`; on RV32 bits 63:32 are zero (assumption log 2). -/
abbrev Word := BitVec 64

end Sys2Proof
end

