-- ==== Sys2Proof/Config.lean ====
section
/-! DEFINITION. The parameters the spec leaves open (00_scope.md R10) as plain data, and the free values
the spec leaves undefined (R16, 43_memory_access.md R154) as constants without a body. -/

namespace Sys2Proof

/-- `XLEN` (R10, D1): the base ISA is RV32I or RV64I (R2). -/
inductive Xlen where
  | rv32
  | rv64
deriving DecidableEq, Repr

/-- `TL_SUBEXT` (R10, D2): which sub-extensions of R3 are implemented. An absent one takes its instructions away (R82)
and no register: the tensor registers and the eight CSRs stay (DESIGN CHOICE, assumption log 42). -/
structure Subext where
  ztlx : Bool
  ztlc : Bool
  ztla : Bool
  ztlm : Bool
deriving DecidableEq, Repr

/-- `TL_UNASSIGNED` (R10, D9): what a tensor-register byte holds after an instruction whose rule gives
it no value. `any`: a free draw (`ANY8`); `unchanged`: its old value. -/
inductive Unassigned where
  | any
  | unchanged
deriving DecidableEq, Repr

/-- `TL_MEM_LAYOUT` (R10, D19): where slice i of `tl.mload` / `tl.mstore` lies in memory (R152). -/
inductive MemLayout where
  | inplace
  | packed
deriving DecidableEq, Repr

/-- The reading of `tl.concat`'s data function, a configuration field as R125 asks. `literal`: rule R121
(the default). `unstated`: any other reading, the tensor one among them, of which the spec gives no
data, so every byte of the destination is a free draw (assumption log 11). -/
inductive ConcatReading where
  | literal
  | unstated
deriving DecidableEq, Repr

/-- What a trap on `IllegalInstruction` records as its value (R201): the instruction word or 0, the
implementation's choice (assumption log 21). -/
inductive IllegalValue where
  | word
  | zero
deriving DecidableEq, Repr

/-- One region of `MEM` (R10, R56, D39): the byte addresses `base .. base + size - 1` and what the
platform admits there. -/
structure Region where
  base : Nat
  size : Nat
  readable : Bool
  writable : Bool
  executable : Bool
  idempotent : Bool
deriving DecidableEq, Repr

/-- A run of byte addresses `base .. base + size - 1`, modulo `2^XLEN`; the program's own text is a list of these
(R65). -/
structure Span where
  base : Nat
  size : Nat
deriving DecidableEq, Repr

/-- The parameters of one machine and one launch (R10). No step changes them. -/
structure Config where
  /-- `XLEN` (D1) -/
  xlen : Xlen
  /-- `TL_SUBEXT` (D2) -/
  subext : Subext
  /-- `TL_UNASSIGNED` (D9) -/
  unassigned : Unassigned
  /-- `TL_MEM_LAYOUT` (D19) -/
  memLayout : MemLayout
  /-- `MEM` (D39): the first region that holds an address decides; an address in no region is not
  admitted for anything (assumption log 17) -/
  mem : List Region
  /-- `RESET_PC` (D29) -/
  resetPc : Word
  /-- `HALT_PC` (D34), a parameter of the launch; none while no program is loaded (assumption log 23) -/
  haltPc : Option Word
  /-- the program's own instructions as far as the launch marked them, which no store may touch (R65, D32;
  assumption log 19) -/
  text : List Span
  /-- the value recorded with `IllegalInstruction` (R201) -/
  illegalValue : IllegalValue
  /-- the data function of `tl.concat` (R125) -/
  concat : ConcatReading
deriving DecidableEq, Repr

/-- The region of the default `MEM`: every byte address, admitted and idempotent (D39). -/
def Region.everything : Region :=
  { base := 0, size := 2 ^ 64, readable := true, writable := true, executable := true, idempotent := true }

/-- The defaults of R10: RV32, all sub-extensions, `any`, `inplace`, everything admitted, `RESET_PC = 0`,
no program loaded. -/
def Config.default : Config :=
  { xlen := .rv32
    subext := { ztlx := true, ztlc := true, ztla := true, ztlm := true }
    unassigned := .any
    memLayout := .inplace
    mem := [Region.everything]
    resetPc := 0
    haltPc := none
    text := []
    illegalValue := .word
    concat := .literal }

/-- `ANY8` (R16): the byte of draw number `n`, of which nothing is known (assumption log 8). -/
opaque Config.freeByte (n : Nat) : Byte

/-- `ANY32` (R16): the word of draw number `n`, of which nothing is known (assumption log 9). -/
opaque Config.freeWord (n : Nat) : Word32

/-- Whether access number `n` of a faulting `tl.mload` or `tl.mstore` was made (R154): nothing is known
(assumption log 22). -/
opaque Config.freeBool (n : Nat) : Bool

/-- Which of several faulting addresses is reported (R154, R203): nothing is known (assumption log 22). -/
opaque Config.freeChoice (n : Nat) : Nat

end Sys2Proof
end

