-- ==== Sys2Proof/Syntax.lean ====
section
/-! DEFINITION. The instructions: one constructor per row of spec/opcode_table.json, the operands in the
assembler's text order (30_encoding.md R91), each in the register file R73 gives it. -/

namespace Sys2Proof

/-- An operand field that names an integer register `x0`..`x31` (R73). -/
abbrev XReg := BitVec 5

/-- An operand field that names a tensor register `t0`..`t31` (R26, R73). -/
abbrev TReg := BitVec 5

/-- The 21 instructions of spec/opcode_table.json. -/
inductive Instr where
  /-- R104: `tl.xpose.01 t<rd>, t<rs1>, x<rs2>` -/
  | tlXpose01 (rd rs1 : TReg) (rs2 : XReg)
  /-- R105 -/
  | tlXpose02 (rd rs1 : TReg) (rs2 : XReg)
  /-- R106 -/
  | tlXpose03 (rd rs1 : TReg) (rs2 : XReg)
  /-- R107 -/
  | tlXpose12 (rd rs1 : TReg) (rs2 : XReg)
  /-- R108 (rests on the resolved conflict C1, assumption log 13) -/
  | tlXpose13 (rd rs1 : TReg) (rs2 : XReg)
  /-- R109 -/
  | tlXpose23 (rd rs1 : TReg) (rs2 : XReg)
  /-- R122: `tl.concat.0 t<rd>, t<rs1>, t<rs2>` -/
  | tlConcat0 (rd rs1 rs2 : TReg)
  /-- R123 -/
  | tlConcat1 (rd rs1 rs2 : TReg)
  /-- R124 -/
  | tlConcat2 (rd rs1 rs2 : TReg)
  /-- R140: `tl.addi t<rd>, t<rs1>, imm`, imm a 12-bit two's complement number (R74) -/
  | tlAddi (rd rs1 : TReg) (imm : BitVec 12)
  /-- R155: `tl.mload t<rd>, x<rs1>, x<rs2>`: destination, descriptor, base -/
  | tlMload (rd : TReg) (rs1 rs2 : XReg)
  /-- R156: `tl.mstore t<rs1>, x<rs2>, x<rd>`: source, base, descriptor (`rd` is read) -/
  | tlMstore (rs1 : TReg) (rs2 rd : XReg)
  /-- R171 -/
  | lui (rd : XReg) (imm20 : BitVec 20)
  /-- R172 -/
  | addi (rd rs1 : XReg) (imm : BitVec 12)
  /-- R173: the offset is the 13-bit `imm[12:0]`, whose bit 0 is 0 (R170) -/
  | bne (rs1 rs2 : XReg) (offset : BitVec 13)
  /-- R180: the CSR address is any 12 bits; the meaning checks that it is implemented -/
  | csrrw (rd : XReg) (csr : BitVec 12) (rs1 : XReg)
  /-- R181 -/
  | csrrs (rd : XReg) (csr : BitVec 12) (rs1 : XReg)
  /-- R182 -/
  | csrrc (rd : XReg) (csr : BitVec 12) (rs1 : XReg)
  /-- R183 -/
  | csrrwi (rd : XReg) (csr : BitVec 12) (uimm : BitVec 5)
  /-- R184 -/
  | csrrsi (rd : XReg) (csr : BitVec 12) (uimm : BitVec 5)
  /-- R185 -/
  | csrrci (rd : XReg) (csr : BitVec 12) (uimm : BitVec 5)
deriving DecidableEq, Repr

end Sys2Proof
end

