-- ==== Sys2Proof/WellFormed.lean ====
section
/-! DEFINITION. Which terms of `Instr` are instructions: every operand field admits all its values
(30_encoding.md R80, R74, R170), but a branch offset is even (R170, R173). -/

namespace Sys2Proof

/-- An instruction some 32-bit word encodes: the only operand with an inadmissible value is `bne`'s
offset, whose bit 0 no field of the word holds (R170). -/
def Instr.wellFormed : Instr → Bool
  | .bne _ _ offset => !offset.getLsbD 0
  | .tlXpose01 _ _ _ | .tlXpose02 _ _ _ | .tlXpose03 _ _ _ | .tlXpose12 _ _ _ | .tlXpose13 _ _ _
  | .tlXpose23 _ _ _ | .tlConcat0 _ _ _ | .tlConcat1 _ _ _ | .tlConcat2 _ _ _ | .tlAddi _ _ _
  | .tlMload _ _ _ | .tlMstore _ _ _ | .lui _ _ | .addi _ _ _ | .csrrw _ _ _ | .csrrs _ _ _
  | .csrrc _ _ _ | .csrrwi _ _ _ | .csrrsi _ _ _ | .csrrci _ _ _ => true

end Sys2Proof
end

