-- ==== Sys2Proof/Decode.lean ====
section
/-! DEFINITION. The decoder, total on any bytes and rejecting by name (30_encoding.md R70 to R82,
44_base_support.md R170 to R185), the encoder written from the same formats, and the opcode table as data. -/

namespace Sys2Proof

/-! ### Fields of an instruction word (R71, R72, R170) -/

/-- `w[6:0]` -/
def opcodeOf (w : Word32) : BitVec 7 := w.extractLsb' 0 7
/-- `w[11:7]` -/
def rdOf (w : Word32) : BitVec 5 := w.extractLsb' 7 5
/-- `w[14:12]` -/
def funct3Of (w : Word32) : BitVec 3 := w.extractLsb' 12 3
/-- `w[19:15]` -/
def rs1Of (w : Word32) : BitVec 5 := w.extractLsb' 15 5
/-- `w[24:20]` -/
def rs2Of (w : Word32) : BitVec 5 := w.extractLsb' 20 5
/-- `w[31:25]` -/
def funct7Of (w : Word32) : BitVec 7 := w.extractLsb' 25 7
/-- `w[31:20]`: the I format's immediate (R72, R74), the CSR address of a Zicsr instruction (R170) -/
def immIOf (w : Word32) : BitVec 12 := w.extractLsb' 20 12
/-- `w[31:12]`: the U format's immediate (R170) -/
def immUOf (w : Word32) : BitVec 20 := w.extractLsb' 12 20
/-- The B format's offset: `imm[12]` in bit 31, `imm[11]` in bit 7, `imm[10:5]` in 30:25, `imm[4:1]` in
11:8, `imm[0] = 0` (R170). -/
def immBOf (w : Word32) : BitVec 13 :=
  w.extractLsb' 31 1 ++ w.extractLsb' 7 1 ++ w.extractLsb' 25 6 ++ w.extractLsb' 8 4 ++ 0#1

/-! ### The decoder -/

/-- Why bytes are no instruction. Each one raises `IllegalInstruction` in a step (R80, R82, R201), but
`truncated`, which four fetched bytes cannot give. -/
inductive DecodeReject where
  /-- a word of the CUSTOM-2 space that matches no row of R75 (R80) -/
  | reservedCustom2
  /-- a word outside the CUSTOM-2 space that matches no row of the table (R201) -/
  | noTableRow
  /-- an instruction of a sub-extension `TL_SUBEXT` leaves out (R82) -/
  | absentSubextension
  /-- fewer than four bytes -/
  | truncated
deriving DecidableEq, Repr

/-- What decoding answers. -/
inductive Decoded where
  | ok (i : Instr)
  | reject (why : DecodeReject)
deriving DecidableEq, Repr

/-- `funct3 = 000`: the six transposes, `funct7` matched as a whole constant (R75, R77). -/
def decodeXpose (w : Word32) : Decoded :=
  if funct7Of w = 0b0110001 then .ok (.tlXpose01 (rdOf w) (rs1Of w) (rs2Of w))
  else if funct7Of w = 0b0110010 then .ok (.tlXpose02 (rdOf w) (rs1Of w) (rs2Of w))
  else if funct7Of w = 0b0110011 then .ok (.tlXpose03 (rdOf w) (rs1Of w) (rs2Of w))
  else if funct7Of w = 0b0111001 then .ok (.tlXpose12 (rdOf w) (rs1Of w) (rs2Of w))
  else if funct7Of w = 0b0111010 then .ok (.tlXpose13 (rdOf w) (rs1Of w) (rs2Of w))
  else if funct7Of w = 0b0111011 then .ok (.tlXpose23 (rdOf w) (rs1Of w) (rs2Of w))
  else .reject .reservedCustom2

/-- `funct3 = 001`: the three concatenations (R75, R78). -/
def decodeConcat (w : Word32) : Decoded :=
  if funct7Of w = 0b1000000 then .ok (.tlConcat0 (rdOf w) (rs1Of w) (rs2Of w))
  else if funct7Of w = 0b1000001 then .ok (.tlConcat1 (rdOf w) (rs1Of w) (rs2Of w))
  else if funct7Of w = 0b1000010 then .ok (.tlConcat2 (rdOf w) (rs1Of w) (rs2Of w))
  else .reject .reservedCustom2

/-- The CUSTOM-2 space: first `funct3`, then `funct7` (R75, R76, R79, R80). -/
def decodeCustom2 (w : Word32) : Decoded :=
  if funct3Of w = 0b000 then decodeXpose w
  else if funct3Of w = 0b001 then decodeConcat w
  else if funct3Of w = 0b010 then .ok (.tlAddi (rdOf w) (rs1Of w) (immIOf w))
  else if funct3Of w = 0b011 ∧ funct7Of w = 0b1010000 then .ok (.tlMload (rdOf w) (rs1Of w) (rs2Of w))
  else if funct3Of w = 0b100 ∧ funct7Of w = 0b1010001 then .ok (.tlMstore (rs1Of w) (rs2Of w) (rdOf w))
  else .reject .reservedCustom2

/-- Opcode `1110011`: the six Zicsr instructions (R180 to R185). -/
def decodeZicsr (w : Word32) : Decoded :=
  if funct3Of w = 0b001 then .ok (.csrrw (rdOf w) (immIOf w) (rs1Of w))
  else if funct3Of w = 0b010 then .ok (.csrrs (rdOf w) (immIOf w) (rs1Of w))
  else if funct3Of w = 0b011 then .ok (.csrrc (rdOf w) (immIOf w) (rs1Of w))
  else if funct3Of w = 0b101 then .ok (.csrrwi (rdOf w) (immIOf w) (rs1Of w))
  else if funct3Of w = 0b110 then .ok (.csrrsi (rdOf w) (immIOf w) (rs1Of w))
  else if funct3Of w = 0b111 then .ok (.csrrci (rdOf w) (immIOf w) (rs1Of w))
  else .reject .noTableRow

/-- One 32-bit word (R75, R171 to R173, R201). -/
def decodeWord (w : Word32) : Decoded :=
  if opcodeOf w = 0b1011011 then decodeCustom2 w
  else if opcodeOf w = 0b0110111 then .ok (.lui (rdOf w) (immUOf w))
  else if opcodeOf w = 0b0010011 ∧ funct3Of w = 0b000 then .ok (.addi (rdOf w) (rs1Of w) (immIOf w))
  else if opcodeOf w = 0b1100011 ∧ funct3Of w = 0b001 then .ok (.bne (rs1Of w) (rs2Of w) (immBOf w))
  else if opcodeOf w = 0b1110011 then decodeZicsr w
  else .reject .noTableRow

/-- Four bytes as a little-endian word: instruction bits 7:0 are the first byte (20_memory.md R50). -/
def wordOfBytes (b0 b1 b2 b3 : Byte) : Word32 := b3 ++ b2 ++ b1 ++ b0

/-- The bytes of a word, lowest address first (R50). -/
def bytesOfWord (w : Word32) : List Byte :=
  [w.extractLsb' 0 8, w.extractLsb' 8 8, w.extractLsb' 16 8, w.extractLsb' 24 8]

/-- The instruction at the front of a run of bytes; every instruction takes four (R70). -/
def decode : List Byte → Decoded
  | b0 :: b1 :: b2 :: b3 :: _ => decodeWord (wordOfBytes b0 b1 b2 b3)
  | _ => .reject .truncated

/-- Whether the sub-extension an instruction belongs to (R3) is implemented (R82); the base ISA and Zicsr
always are (R2). -/
def Subext.implements (e : Subext) : Instr → Bool
  | .tlXpose01 _ _ _ | .tlXpose02 _ _ _ | .tlXpose03 _ _ _ | .tlXpose12 _ _ _ | .tlXpose13 _ _ _
  | .tlXpose23 _ _ _ => e.ztlx
  | .tlConcat0 _ _ _ | .tlConcat1 _ _ _ | .tlConcat2 _ _ _ => e.ztlc
  | .tlAddi _ _ _ => e.ztla
  | .tlMload _ _ _ | .tlMstore _ _ _ => e.ztlm
  | .lui _ _ | .addi _ _ _ | .bne _ _ _ | .csrrw _ _ _ | .csrrs _ _ _ | .csrrc _ _ _
  | .csrrwi _ _ _ | .csrrsi _ _ _ | .csrrci _ _ _ => true

/-- Decoding on a given hart: a word of an absent sub-extension is reserved (R82). -/
def Config.decode (c : Config) (bytes : List Byte) : Decoded :=
  match Sys2Proof.decode bytes with
  | .ok i => if c.subext.implements i then .ok i else .reject .absentSubextension
  | .reject why => .reject why

/-- The host's view of the decoder: `w`'s low `nbits` bits laid out as four little-endian bytes. -/
def decodeTableWord (nbits w : Nat) : Option Instr :=
  match decode (bytesOfWord (BitVec.ofNat 32 (w % 2 ^ nbits))) with
  | .ok i => some i
  | .reject _ => none

/-! ### The encoder -/

/-- The R format (R71). -/
def encodeR (funct7 : BitVec 7) (rs2 rs1 : BitVec 5) (funct3 : BitVec 3) (rd : BitVec 5)
    (opcode : BitVec 7) : Word32 :=
  funct7 ++ rs2 ++ rs1 ++ funct3 ++ rd ++ opcode

/-- The I format (R72), also that of the Zicsr instructions (R170). -/
def encodeI (imm : BitVec 12) (rs1 : BitVec 5) (funct3 : BitVec 3) (rd : BitVec 5)
    (opcode : BitVec 7) : Word32 :=
  imm ++ rs1 ++ funct3 ++ rd ++ opcode

/-- The U format (R170). -/
def encodeU (imm : BitVec 20) (rd : BitVec 5) (opcode : BitVec 7) : Word32 :=
  imm ++ rd ++ opcode

/-- The B format (R170); bit 0 of the offset has no place in the word. -/
def encodeB (imm : BitVec 13) (rs2 rs1 : BitVec 5) (funct3 : BitVec 3) (opcode : BitVec 7) : Word32 :=
  imm.extractLsb' 12 1 ++ imm.extractLsb' 5 6 ++ rs2 ++ rs1 ++ funct3 ++ imm.extractLsb' 1 4
    ++ imm.extractLsb' 11 1 ++ opcode

/-- The word of an instruction (R75, R171 to R173, R180 to R185). -/
def encode : Instr → Word32
  | .tlXpose01 rd rs1 rs2 => encodeR 0b0110001 rs2 rs1 0b000 rd 0b1011011
  | .tlXpose02 rd rs1 rs2 => encodeR 0b0110010 rs2 rs1 0b000 rd 0b1011011
  | .tlXpose03 rd rs1 rs2 => encodeR 0b0110011 rs2 rs1 0b000 rd 0b1011011
  | .tlXpose12 rd rs1 rs2 => encodeR 0b0111001 rs2 rs1 0b000 rd 0b1011011
  | .tlXpose13 rd rs1 rs2 => encodeR 0b0111010 rs2 rs1 0b000 rd 0b1011011
  | .tlXpose23 rd rs1 rs2 => encodeR 0b0111011 rs2 rs1 0b000 rd 0b1011011
  | .tlConcat0 rd rs1 rs2 => encodeR 0b1000000 rs2 rs1 0b001 rd 0b1011011
  | .tlConcat1 rd rs1 rs2 => encodeR 0b1000001 rs2 rs1 0b001 rd 0b1011011
  | .tlConcat2 rd rs1 rs2 => encodeR 0b1000010 rs2 rs1 0b001 rd 0b1011011
  | .tlAddi rd rs1 imm => encodeI imm rs1 0b010 rd 0b1011011
  | .tlMload rd rs1 rs2 => encodeR 0b1010000 rs2 rs1 0b011 rd 0b1011011
  | .tlMstore rs1 rs2 rd => encodeR 0b1010001 rs2 rs1 0b100 rd 0b1011011
  | .lui rd imm20 => encodeU imm20 rd 0b0110111
  | .addi rd rs1 imm => encodeI imm rs1 0b000 rd 0b0010011
  | .bne rs1 rs2 offset => encodeB offset rs2 rs1 0b001 0b1100011
  | .csrrw rd csr rs1 => encodeI csr rs1 0b001 rd 0b1110011
  | .csrrs rd csr rs1 => encodeI csr rs1 0b010 rd 0b1110011
  | .csrrc rd csr rs1 => encodeI csr rs1 0b011 rd 0b1110011
  | .csrrwi rd csr uimm => encodeI csr uimm 0b101 rd 0b1110011
  | .csrrsi rd csr uimm => encodeI csr uimm 0b110 rd 0b1110011
  | .csrrci rd csr uimm => encodeI csr uimm 0b111 rd 0b1110011

/-- The bytes of an instruction as they lie in memory (R50). -/
def encodeBytes (i : Instr) : List Byte := bytesOfWord (encode i)

/-! ### The opcode table as data -/

/-- One row of spec/opcode_table.json: a word is the row's instruction when `w & mask = match` (R75). -/
structure OpcodeRow where
  mnemonic : String
  match' : Word32
  mask : Word32
deriving DecidableEq, Repr

/-- The rows of the CUSTOM-2 space (R75). -/
def tensorRows : List OpcodeRow :=
  [⟨"tl.xpose.01", 0x6200005B, 0xFE00707F⟩, ⟨"tl.xpose.02", 0x6400005B, 0xFE00707F⟩,
   ⟨"tl.xpose.03", 0x6600005B, 0xFE00707F⟩, ⟨"tl.xpose.12", 0x7200005B, 0xFE00707F⟩,
   ⟨"tl.xpose.13", 0x7400005B, 0xFE00707F⟩, ⟨"tl.xpose.23", 0x7600005B, 0xFE00707F⟩,
   ⟨"tl.concat.0", 0x8000105B, 0xFE00707F⟩, ⟨"tl.concat.1", 0x8200105B, 0xFE00707F⟩,
   ⟨"tl.concat.2", 0x8400105B, 0xFE00707F⟩, ⟨"tl.addi", 0x0000205B, 0x0000707F⟩,
   ⟨"tl.mload", 0xA000305B, 0xFE00707F⟩, ⟨"tl.mstore", 0xA200405B, 0xFE00707F⟩]

/-- The rows of the support subset (R171 to R173, R180 to R185). -/
def supportRows : List OpcodeRow :=
  [⟨"lui", 0x00000037, 0x0000007F⟩, ⟨"addi", 0x00000013, 0x0000707F⟩, ⟨"bne", 0x00001063, 0x0000707F⟩,
   ⟨"csrrw", 0x00001073, 0x0000707F⟩, ⟨"csrrs", 0x00002073, 0x0000707F⟩,
   ⟨"csrrc", 0x00003073, 0x0000707F⟩, ⟨"csrrwi", 0x00005073, 0x0000707F⟩,
   ⟨"csrrsi", 0x00006073, 0x0000707F⟩, ⟨"csrrci", 0x00007073, 0x0000707F⟩]

/-- The whole table. -/
def opcodeTable : List OpcodeRow := tensorRows ++ supportRows

/-- The mnemonic of an instruction as the table spells it. -/
def Instr.mnemonic : Instr → String
  | .tlXpose01 _ _ _ => "tl.xpose.01"
  | .tlXpose02 _ _ _ => "tl.xpose.02"
  | .tlXpose03 _ _ _ => "tl.xpose.03"
  | .tlXpose12 _ _ _ => "tl.xpose.12"
  | .tlXpose13 _ _ _ => "tl.xpose.13"
  | .tlXpose23 _ _ _ => "tl.xpose.23"
  | .tlConcat0 _ _ _ => "tl.concat.0"
  | .tlConcat1 _ _ _ => "tl.concat.1"
  | .tlConcat2 _ _ _ => "tl.concat.2"
  | .tlAddi _ _ _ => "tl.addi"
  | .tlMload _ _ _ => "tl.mload"
  | .tlMstore _ _ _ => "tl.mstore"
  | .lui _ _ => "lui"
  | .addi _ _ _ => "addi"
  | .bne _ _ _ => "bne"
  | .csrrw _ _ _ => "csrrw"
  | .csrrs _ _ _ => "csrrs"
  | .csrrc _ _ _ => "csrrc"
  | .csrrwi _ _ _ => "csrrwi"
  | .csrrsi _ _ _ => "csrrsi"
  | .csrrci _ _ _ => "csrrci"

end Sys2Proof
end

