-- ==== Sys2Proof/Machine/State.lean ====
section
/-! DEFINITION. The state of the machine as plain data, the state after reset, and the reasons a step
can stop. -/

namespace Sys2Proof.Machine

/-- A tensor register: an array of 1024 bytes (10_state.md R26, R27). -/
abbrev Tensor := Vector Byte 1024

/-- Memory: (address, byte) pairs, addresses strictly rising, no byte equal to what an unlisted address
reads as (10_state.md R42, assumption log 6). -/
abbrev Memory := List Host.Cell

/-- What a memory access does (20_memory.md R56). -/
inductive AccessKind where
  | read
  | write
deriving DecidableEq, Repr

/-- The memory events of one `tl.mload` or `tl.mstore` (20_memory.md R67): its pc, the kind, and one
(address, value) pair per byte accessed. The pairs are a set, held by rising address; no order of the
accesses is meant (R55). -/
structure AccessRecord where
  pc : Word
  kind : AccessKind
  cells : List Host.Cell
deriving DecidableEq, Repr

/-- The state of the hart and its memory. -/
structure State where
  /-- the parameters of R10; no step changes them -/
  cfg : Config
  /-- `x0`..`x31` (R21); slot 0 is never written and never read -/
  x : Vector Word 32
  /-- the address of the instruction being executed (R23) -/
  pc : Word
  /-- `T[0]`..`T[31]` (R26) -/
  t : Vector Tensor 32
  /-- CSR 0x800 `tl_tensor_shape` (R33) -/
  tensorShape : Word32
  /-- CSR 0x801 `tl_transpose_perm` (R34) -/
  transposePerm : Word32
  /-- CSR 0x802 `tl_xpose_config` (R35) -/
  xposeConfig : Word32
  /-- CSR 0x803 `tl_xpose_status` (R36): what its last read drew (assumption log 9) -/
  xposeStatus : Word32
  /-- CSR 0x810 `tl_mask1_csr` (R37) -/
  mask1 : Word32
  /-- CSR 0x811 `tl_mask2_csr` (R38) -/
  mask2 : Word32
  /-- CSR 0x812 `tl_load_mask_csr` (R39) -/
  loadMask : Word32
  /-- CSR 0x813 `tl_store_mask_csr` (R40) -/
  storeMask : Word32
  /-- the byte-addressed memory (R42) -/
  mem : Memory
  /-- the memory events so far, the newest record first (R67) -/
  events : List AccessRecord
  /-- the model's own: how many free values have been drawn (R16, assumption log 8) -/
  draws : Nat
deriving DecidableEq, Repr

/-- The exceptions of 60_exceptions.md R200. -/
inductive Exception where
  | instructionAddressMisaligned
  | instructionAccessFault
  | illegalInstruction
  | loadAccessFault
  | storeAccessFault
deriving DecidableEq, Repr

/-- What a trap leaves (60_exceptions.md R208): the cause code, the pc of the raising instruction, the
value of R200's table, and the state at the fault, from which no further step is taken. -/
structure Trap where
  code : Nat
  pc : Word
  value : Word
  final : State
deriving DecidableEq, Repr

/-- The machine stops with a trap, the terminal fault outcome of R208. All five are SAFE: the hardware's
handler, which no source describes, is not run (assumption log 20). -/
inductive Fault where
  /-- code 0: raised by `bne` taken to a target that is no multiple of 4 (R202), and by the fetch at such
  a pc (U26); safe -/
  | instructionAddressMisaligned (trap : Trap)
  /-- code 1: raised by the fetch at a pc `MEM` does not admit for execution (R204); safe -/
  | instructionAccessFault (trap : Trap)
  /-- code 2: raised by the decoding of a word that is no instruction of this hart (R80, R82, R201), and by
  a Zicsr instruction that names no implemented CSR (R41); safe -/
  | illegalInstruction (trap : Trap)
  /-- code 5: raised by `tl.mload` when `MEM` does not admit a byte of a selected slice (R154, R203); safe -/
  | loadAccessFault (trap : Trap)
  /-- code 7: raised by `tl.mstore` when `MEM` does not admit a byte of a selected slice (R154, R203); safe -/
  | storeAccessFault (trap : Trap)
deriving DecidableEq, Repr

/-- The spec gives the case no meaning and says the model must refuse it (R16 `unspecified -> refuse`).
All are SAFE: nothing is claimed of the hardware there. -/
inductive Refusal where
  /-- raised by an arm of `exec` for an instruction without a meaning; safe -/
  | notModelled (mnemonic : String)
  /-- raised by `tl.xpose.*`, `tl.mload` and `tl.mstore` for a descriptor with an extent of 0 or more than
  1024 elements (R102, R153, D8); safe -/
  | invalidDescriptor (descriptor : Word32)
  /-- raised by `tl.mload` and `tl.mstore` for an access to a location `MEM` marks non-idempotent (R57, D39);
  safe -/
  | nonIdempotentLocation (address : Nat)
  /-- raised by `tl.mstore` for a store into the program's own instructions, the word at the pc among them (R65,
  D32); safe -/
  | storeIntoProgramText (address : Nat)
deriving DecidableEq, Repr

/-- The machine right after reset under the parameters `c` (R45, R230): the pc at `RESET_PC`, nothing listed
in memory, and every register the spec gives no reset value at zero (assumption logs 3 to 7). -/
def State.resetWith (c : Config) : State :=
  { cfg := c
    x := Vector.replicate 32 0
    pc := c.resetPc
    t := Vector.replicate 32 (Vector.replicate 1024 0)
    tensorShape := 0
    transposePerm := 0
    xposeConfig := 0
    xposeStatus := 0
    mask1 := 0
    mask2 := 0
    loadMask := 0
    storeMask := 0
    mem := []
    events := []
    draws := 0 }

/-- Reset under the default parameters of R10. -/
def State.reset : State := State.resetWith Config.default

end Sys2Proof.Machine
end

