-- ==== Sys2Proof/Machine/Ops.lean ====
section
/-! DEFINITION. The named operations over registers, CSRs and memory, what `MEM` admits, the free draws,
and taking an exception as one shared operation (60_exceptions.md R208). -/

namespace Sys2Proof

/-- `XLEN` in bits (00_scope.md R10). -/
def Xlen.bits : Xlen → Nat
  | .rv32 => 32
  | .rv64 => 64

/-- A value reduced modulo `2^XLEN` (R12). -/
def Xlen.wrap : Xlen → Word → Word
  | .rv32, w => (w.setWidth 32).setWidth 64
  | .rv64, w => w

/-- A byte address reduced modulo `2^XLEN` (20_memory.md R58). -/
def Xlen.addr (x : Xlen) (a : Nat) : Nat := a % 2 ^ x.bits

end Sys2Proof

namespace Sys2Proof.Machine

/-- How a step or a meaning ends. -/
abbrev Result := Host.Outcome State Fault Refusal

/-! ### Integer registers (10_state.md R21) -/

/-- `x[r]`: `x0` reads as zero; the value has `XLEN` bits. -/
def State.readX (s : State) (r : XReg) : Word :=
  if r = 0 then 0 else s.cfg.xlen.wrap (s.x[r.toNat]'r.isLt)

/-- `x[r] <- v`: a write to `x0` is discarded; `XLEN` bits are kept. -/
def State.writeX (s : State) (r : XReg) (v : Word) : State :=
  if r = 0 then s else { s with x := s.x.set r.toNat (s.cfg.xlen.wrap v) r.isLt }

/-! ### The program counter (R23, R24) -/

/-- The address of the instruction being executed. -/
def State.readPc (s : State) : Word := s.cfg.xlen.wrap s.pc

/-- `pc <- v`, modulo `2^XLEN`. -/
def State.setPc (s : State) (v : Word) : State := { s with pc := s.cfg.xlen.wrap v }

/-- `pc <- pc + 4`, modulo `2^XLEN` (R24). -/
def State.advancePc (s : State) : State := s.setPc (s.pc + 4)

/-! ### Tensor registers (R26 to R29) -/

/-- The bytes `f k, f (k+1), …`, `n` of them. -/
def bytesFrom (f : Nat → Byte) : Nat → Nat → List Byte
  | 0, _ => []
  | n + 1, k => f k :: bytesFrom f n (k + 1)

theorem bytesFrom_length (f : Nat → Byte) (n k : Nat) : (bytesFrom f n k).length = n := by
  induction n generalizing k with
  | zero => rfl
  | succ n ih => simp [bytesFrom, ih]

/-- The tensor whose byte at each linear index `k` is `f k`. -/
def Tensor.ofBytes (f : Nat → Byte) : Tensor := ⟨⟨bytesFrom f 1024 0⟩, bytesFrom_length f 1024 0⟩

/-- `A[k]`; an index past the register reads as 0, which no rule does. -/
def Tensor.byte (A : Tensor) (k : Nat) : Byte := if h : k < 1024 then A[k] else 0

/-- `T[r]` -/
def State.readT (s : State) (r : TReg) : Tensor := s.t[r.toNat]'r.isLt

/-- `T[r] <- A` -/
def State.writeT (s : State) (r : TReg) (A : Tensor) : State := { s with t := s.t.set r.toNat A r.isLt }

/-! ### Free values (00_scope.md R16) -/

/-- `n` further draws have been made. -/
def State.drew (s : State) (n : Nat) : State := { s with draws := s.draws + n }

/-- `ANY8`: the free byte of draw `k` of this instruction. -/
def State.anyByte (s : State) (k : Nat) : Byte := Config.freeByte (s.draws + k)

/-- What byte `k` of `T[rd]` holds when the instruction's rule gives it no value: `TL_UNASSIGNED`
(R10, R16, D9). -/
def State.unassignedByte (s : State) (rd : TReg) (k : Nat) : Byte :=
  match s.cfg.unassigned with
  | .any => s.anyByte k
  | .unchanged => Tensor.byte (s.readT rd) k

/-! ### CSRs (10_state.md R30 to R41) -/

/-- The eight CSRs of R30, the only implemented ones (R41). They exist whatever `TL_SUBEXT` leaves out, as `T[0..31]`
do: the spec settles this for the default only (R3, D2, N3); DESIGN CHOICE, assumption log 42. -/
inductive Csr where
  | tensorShape
  | transposePerm
  | xposeConfig
  | xposeStatus
  | mask1
  | mask2
  | loadMask
  | storeMask
deriving DecidableEq, Repr

/-- The CSR at a 12-bit address, if it is implemented (R30, R41), under every `TL_SUBEXT` (DESIGN CHOICE, assumption
log 42). -/
def Csr.ofAddress (a : BitVec 12) : Option Csr :=
  if a = 0x800 then some .tensorShape
  else if a = 0x801 then some .transposePerm
  else if a = 0x802 then some .xposeConfig
  else if a = 0x803 then some .xposeStatus
  else if a = 0x810 then some .mask1
  else if a = 0x811 then some .mask2
  else if a = 0x812 then some .loadMask
  else if a = 0x813 then some .storeMask
  else none

/-- The 32 bits State holds for a CSR. -/
def State.csr (s : State) : Csr → Word32
  | .tensorShape => s.tensorShape
  | .transposePerm => s.transposePerm
  | .xposeConfig => s.xposeConfig
  | .xposeStatus => s.xposeStatus
  | .mask1 => s.mask1
  | .mask2 => s.mask2
  | .loadMask => s.loadMask
  | .storeMask => s.storeMask

/-- What a software read of a CSR gives: its 32 bits, but a free draw for `tl_xpose_status` (R36, D11). -/
def State.csrValue (s : State) : Csr → Word32
  | .xposeStatus => Config.freeWord s.draws
  | c => s.csr c

/-- What a software read of a CSR does to the state: `tl_xpose_status` shows the value drawn, and the draw is
spent; any other read does nothing (R36, assumption log 9). -/
def State.afterCsrRead (s : State) : Csr → State
  | .xposeStatus => { s with xposeStatus := Config.freeWord s.draws, draws := s.draws + 1 }
  | _ => s

/-- `csr[c] <- v`: plain storage for every CSR but `tl_xpose_status`, whose writes are accepted without
effect (R31 to R40, U7). -/
def State.writeCsr (s : State) (c : Csr) (v : Word32) : State :=
  match c with
  | .tensorShape => { s with tensorShape := v }
  | .transposePerm => { s with transposePerm := v }
  | .xposeConfig => { s with xposeConfig := v }
  | .xposeStatus => s
  | .mask1 => { s with mask1 := v }
  | .mask2 => { s with mask2 := v }
  | .loadMask => { s with loadMask := v }
  | .storeMask => { s with storeMask := v }

/-! ### Memory (R42, 00_scope.md R14) -/

/-- What an address that memory does not list reads as (DESIGN CHOICE, assumption log 6). -/
def Memory.unlisted : Byte := 0

/-- Every listed address is above `a`, addresses rise strictly, and no listed byte is the unlisted one. -/
def Memory.wfAbove : Nat → Memory → Bool
  | _, [] => true
  | a, (b, v) :: m => decide (a < b) && v != Memory.unlisted && Memory.wfAbove b m

/-- The canonical form of memory: strictly rising addresses and no byte equal to the unlisted one. -/
def Memory.wf : Memory → Bool
  | [] => true
  | (b, v) :: m => v != Memory.unlisted && Memory.wfAbove b m

/-- The byte at an address. -/
def Memory.read : Memory → Nat → Byte
  | [], _ => Memory.unlisted
  | (b, v) :: m, a => if a < b then Memory.unlisted else if a = b then v else Memory.read m a

/-- Memory with one byte written; writing the unlisted byte removes the entry. -/
def Memory.write : Memory → Nat → Byte → Memory
  | [], a, v => if v = Memory.unlisted then [] else [(a, v)]
  | (b, w) :: m, a, v =>
    if a < b then (if v = Memory.unlisted then (b, w) :: m else (a, v) :: (b, w) :: m)
    else if a = b then (if v = Memory.unlisted then m else (b, v) :: m)
    else (b, w) :: Memory.write m a v

/-- Memory with several bytes written, one after another. -/
def Memory.writeAll (m : Memory) (cells : List Host.Cell) : Memory :=
  cells.foldl (fun m c => Memory.write m c.1 c.2) m

/-! ### What `MEM` admits (20_memory.md R56, R57; assumption log 17) -/

/-- Whether a region holds an address. -/
def regionHolds (r : Region) (a : Nat) : Bool := decide (r.base ≤ a) && decide (a < r.base + r.size)

/-- The region that decides for an address: the first that holds it. -/
def regionOf (c : Config) (a : Nat) : Option Region := c.mem.find? (fun r => regionHolds r a)

/-- Whether `MEM` admits a data access of a kind at an address (R56). -/
def admitsData (c : Config) (k : AccessKind) (a : Nat) : Bool :=
  match regionOf c a, k with
  | some r, .read => r.readable
  | some r, .write => r.writable
  | none, _ => false

/-- Whether `MEM` admits execution at an address (R204). -/
def admitsFetch (c : Config) (a : Nat) : Bool :=
  match regionOf c a with
  | some r => r.executable
  | none => false

/-- Whether `MEM` does not mark an address non-idempotent (R57); an address in no region is not marked. -/
def isIdempotent (c : Config) (a : Nat) : Bool :=
  match regionOf c a with
  | some r => r.idempotent
  | none => true

/-! ### The program's own instructions (20_memory.md R65; assumption log 19) -/

/-- Whether a span holds an address: the span runs on modulo `2^XLEN`, as the bytes placed there do (R58). -/
def spanHolds (x : Xlen) (p : Span) (a : Nat) : Bool :=
  decide (x.addr (a + (2 ^ x.bits - x.addr p.base)) < p.size)

/-- The four bytes of the instruction at the pc, the one being executed (R23). -/
def State.ownWord (s : State) : Span := { base := s.readPc.toNat, size := 4 }

/-- The program's own instructions: the word being executed, and the text the launch marked. -/
def State.programText (s : State) : List Span := s.ownWord :: s.cfg.text

/-- Whether an address belongs to the program's own instructions (R65). -/
def inProgramText (s : State) (a : Nat) : Bool := s.programText.any fun p => spanHolds s.cfg.xlen p a

/-! ### Memory events (20_memory.md R67) -/

/-- One more cell in a set of cells held by rising address. -/
def insertCell (c : Host.Cell) : List Host.Cell → List Host.Cell
  | [] => [c]
  | d :: ds => if c.1 < d.1 then c :: d :: ds else if c.1 = d.1 then c :: ds else d :: insertCell c ds

/-- The set of cells of a list, in whatever order they come. -/
def cellSet (cells : List Host.Cell) : List Host.Cell := cells.foldr insertCell []

/-- The memory events of one instruction are recorded. -/
def State.record (s : State) (kind : AccessKind) (cells : List Host.Cell) : State :=
  { s with events := { pc := s.readPc, kind := kind, cells := cellSet cells } :: s.events }

/-! ### Taking an exception (60_exceptions.md R200, R208)

There is no return from one: a trap is terminal and the spec has no trap-return instruction (R210). -/

/-- The cause code (R200). -/
def Exception.code : Exception → Nat
  | .instructionAddressMisaligned => 0
  | .instructionAccessFault => 1
  | .illegalInstruction => 2
  | .loadAccessFault => 5
  | .storeAccessFault => 7

/-- The fault outcome of an exception. -/
def Exception.fault : Exception → Trap → Fault
  | .instructionAddressMisaligned => .instructionAddressMisaligned
  | .instructionAccessFault => .instructionAccessFault
  | .illegalInstruction => .illegalInstruction
  | .loadAccessFault => .loadAccessFault
  | .storeAccessFault => .storeAccessFault

/-- `raise E(value)` (00_scope.md R15, R208): the run ends in a fault outcome that records the exception, its
code, the pc of the raising instruction and the value. `s` is the state at the fault: no register is
saved, no mode changes, no handler is entered, and the pc stays. -/
def raise (e : Exception) (value : Word) (s : State) : Fault :=
  e.fault { code := e.code, pc := s.readPc, value := value, final := s }

/-- The value recorded with `IllegalInstruction` for the word `w` (R201). -/
def illegalValueOf (c : Config) (w : Word32) : Word :=
  match c.illegalValue with
  | .word => w.setWidth 64
  | .zero => 0

end Sys2Proof.Machine
end

