-- ==== Sys2Proof/Machine/Flags.lean ====
section
/-! DEFINITION. There is no flag, condition code or predicate register (10_state.md R25). What would set a
flag elsewhere, the saturation of `tl.addi`, is silent here: the clamp. -/

namespace Sys2Proof.Machine

/-- `clamp(v, lo, hi)` over the integers (00_scope.md R12). -/
def clamp (v lo hi : Int) : Int := if v < lo then lo else if v > hi then hi else v

/-- One lane of `tl.addi` (42_arith.md R140): the element is unsigned, the sum is formed without wrap, and
the result is clamped to 0..255 without any flag. -/
def saturatingAdd (element : Byte) (imm : BitVec 12) : Byte :=
  BitVec.ofInt 8 (clamp (element.toNat + imm.toInt) 0 255)

end Sys2Proof.Machine
end

