-- ==== Sys2Proof/Machine/Operands.lean ====
section
/-! DEFINITION. The operand forms: sign-extended immediates, the dimension descriptor, the row-major
linear index, slices, masks and the addresses of a tensor in memory. -/

namespace Sys2Proof.Machine

/-! ### Immediates (30_encoding.md R74, 44_base_support.md R170) -/

/-- `sext_XLEN(imm[11:0])`, before the reduction modulo `2^XLEN`. -/
def sextImm12 (imm : BitVec 12) : Word := imm.signExtend 64

/-- `lui`'s value `sext(imm20 ++ 0x000)` (R171). -/
def luiValue (imm20 : BitVec 20) : Word := (imm20 ++ 0#12 : BitVec 32).signExtend 64

/-- A branch target `pc + sext(offset)` modulo `2^XLEN` (R173). -/
def branchTarget (s : State) (offset : BitVec 13) : Word :=
  s.cfg.xlen.wrap (s.pc + offset.signExtend 64)

/-- The low 32 bits of an integer register: a descriptor (R18), a value for a CSR (R31). -/
def State.readX32 (s : State) (r : XReg) : Word32 := (s.readX r).setWidth 32

/-! ### Shapes and coordinates (00_scope.md R17, R18) -/

/-- Four numbers, one per dimension: a shape `[D0,D1,D2,D3]` or coordinates `[i,j,k,l]`. -/
structure Four where
  d0 : Nat
  d1 : Nat
  d2 : Nat
  d3 : Nat
deriving DecidableEq, Repr

/-- One of the four dimensions, 0 the outermost (R17). -/
inductive Dim where
  | dim0
  | dim1
  | dim2
  | dim3
deriving DecidableEq, Repr

/-- The number at one dimension. -/
def Four.get (v : Four) : Dim → Nat
  | .dim0 => v.d0
  | .dim1 => v.d1
  | .dim2 => v.d2
  | .dim3 => v.d3

/-- The dimension `k` goes to when `a` and `b` are exchanged. -/
def Dim.swap (a b k : Dim) : Dim := if k = a then b else if k = b then a else k

/-- `swap_ab(v)`: the entries at `a` and `b` exchanged (40_transpose.md R101). -/
def Four.swap (a b : Dim) (v : Four) : Four :=
  { d0 := v.get (Dim.swap a b .dim0), d1 := v.get (Dim.swap a b .dim1)
    d2 := v.get (Dim.swap a b .dim2), d3 := v.get (Dim.swap a b .dim3) }

/-- The shape a descriptor holds, dimension 0 in the lowest byte (R18). -/
def shapeOf (d : Word32) : Four :=
  { d0 := (d.extractLsb' 0 8).toNat, d1 := (d.extractLsb' 8 8).toNat
    d2 := (d.extractLsb' 16 8).toNat, d3 := (d.extractLsb' 24 8).toNat }

/-- `N = D0*D1*D2*D3` (R17). -/
def Four.count (D : Four) : Nat := D.d0 * D.d1 * D.d2 * D.d3

/-- `valid(d)` on the shape of `d`: every extent at least 1 and at most 1024 elements (R18). -/
def Four.valid (D : Four) : Bool :=
  decide (1 ≤ D.d0) && decide (1 ≤ D.d1) && decide (1 ≤ D.d2) && decide (1 ≤ D.d3) &&
    decide (D.count ≤ 1024)

/-- Whether `c` are coordinates of an element of shape `D`. -/
def Four.inside (c D : Four) : Bool :=
  decide (c.d0 < D.d0) && decide (c.d1 < D.d1) && decide (c.d2 < D.d2) && decide (c.d3 < D.d3)

/-- `lin(c, D)`: the row-major linear index (R17). -/
def lin (c D : Four) : Nat :=
  c.d0 * (D.d1 * D.d2 * D.d3) + c.d1 * (D.d2 * D.d3) + c.d2 * D.d3 + c.d3

/-- The coordinates of the element with linear index `j`: the inverse of `lin`. -/
def unlin (j : Nat) (D : Four) : Four :=
  { d0 := j / (D.d1 * D.d2 * D.d3), d1 := j / (D.d2 * D.d3) % D.d1
    d2 := j / D.d3 % D.d2, d3 := j % D.d3 }

/-! ### Slices and masks (43_memory_access.md R150, R151) -/

/-- `S = D1*D2*D3`: the elements of one slice; slice `i` is all elements with coordinate 0 equal to `i`, the
indices `i*S .. i*S + S - 1` (R150, assumption log 15). -/
def Four.sliceSize (D : Four) : Nat := D.d1 * D.d2 * D.d3

/-- Whether a mask selects slice `i`: bit `i`, bit 0 least significant, is 1 (R151). The one definition of the
mask-to-slice map (C3, assumption log 14). -/
def selects (mask : Word32) (i : Nat) : Bool := decide (i < 32) && mask.getLsbD i

/-- `rank(i)`: the number of selected slices before slice `i` (R152). -/
def rank (mask : Word32) (i : Nat) : Nat := (List.range i).countP (selects mask)

/-! ### Where a tensor lies in memory (R152) -/

/-- `addr(i, k)`: the address of element `k` of slice `i` (R152), modulo `2^XLEN` (R58). -/
def elementAddress (c : Config) (D : Four) (mask : Word32) (base : Word) (i k : Nat) : Nat :=
  match c.memLayout with
  | .inplace => c.xlen.addr (base.toNat + i * D.sliceSize + k)
  | .packed => c.xlen.addr (base.toNat + rank mask i * D.sliceSize + k)

/-- The address of the element with linear index `e`. -/
def indexAddress (c : Config) (D : Four) (mask : Word32) (base : Word) (e : Nat) : Nat :=
  elementAddress c D mask base (e / D.sliceSize) (e % D.sliceSize)

/-- Whether the element with linear index `e` lies in the tensor and in a selected slice. -/
def accessed (D : Four) (mask : Word32) (e : Nat) : Bool :=
  decide (e < D.count) && selects mask (e / D.sliceSize)

/-- One byte access of a tensor memory instruction: the element's linear index and its address. -/
structure Access where
  index : Nat
  address : Nat
deriving DecidableEq, Repr

/-- The accesses of one instruction: one per element of a selected slice (R154). -/
def accessesOf (c : Config) (D : Four) (mask : Word32) (base : Word) : List Access :=
  ((List.range D.count).filter (accessed D mask)).map
    (fun e => { index := e, address := indexAddress c D mask base e })

end Sys2Proof.Machine
end

