-- ==== Sys2Proof/Machine/Arith.lean ====
section
/-! DEFINITION. The element-wise saturating add (42_arith.md R140 to R143). -/

namespace Sys2Proof.Machine

/-- `tl.addi` (R140): every one of the 1024 bytes of `T[rd]` is `clamp(element + sext(imm), 0, 255)`. -/
def execTlAddi (rd rs1 : TReg) (imm : BitVec 12) (s : State) : Result :=
  let A := s.readT rs1
  let B := Tensor.ofBytes fun k => saturatingAdd (A.byte k) imm
  .next (s.writeT rd B).advancePc

end Sys2Proof.Machine
end

