-- ==== Sys2Proof/Machine/Base.lean ====
section
/-! DEFINITION. The support subset of the base ISA: `lui`, `addi`, `bne` (44_base_support.md R171 to R173). -/

namespace Sys2Proof.Machine

/-- `lui` (R171) -/
def execLui (rd : XReg) (imm20 : BitVec 20) (s : State) : Result :=
  .next (s.writeX rd (luiValue imm20)).advancePc

/-- `addi` (R172): wraps modulo `2^XLEN`. -/
def execAddi (rd rs1 : XReg) (imm : BitVec 12) (s : State) : Result :=
  .next (s.writeX rd (s.readX rs1 + sextImm12 imm)).advancePc

/-- `bne` (R173): a taken branch to a target that is no multiple of 4 raises (R202). -/
def execBne (rs1 rs2 : XReg) (offset : BitVec 13) (s : State) : Result :=
  let target := branchTarget s offset
  if s.readX rs1 ≠ s.readX rs2 then
    if target.extractLsb' 0 2 ≠ 0 then .fault (raise .instructionAddressMisaligned target s)
    else .next (s.setPc target)
  else .next s.advancePc

end Sys2Proof.Machine
end

