-- ==== Sys2Proof/Machine/Concat.lean ====
section
/-! DEFINITION. The three concatenations (41_concat.md R120 to R126). -/

namespace Sys2Proof.Machine

/-- The valid elements of one source in ascending index order: those with mask bit 1, of the first 32 (R120,
R121). -/
def collect (mask : Word32) (A : Tensor) : List Byte :=
  ((List.range 32).filter fun i => mask.getLsbD i).map A.byte

/-- The data function of `tl.concat`, the one replaceable definition R125 asks for: under the literal reading
the list `out` of R121; under any other no data is stated (assumption log 11). -/
def concatData (r : ConcatReading) (m1 m2 : Word32) (A1 A2 : Tensor) : Option (List Byte) :=
  match r with
  | .literal => some (collect m1 A1 ++ collect m2 A2)
  | .unstated => none

/-- `CONCAT_INSN(rd, rs1, rs2)` (R121): all source bytes are read before `T[rd]` is written (R29); bytes past the
collected ones are unassigned. The dimension number does not enter (R125). -/
def concatInsn (rd rs1 rs2 : TReg) (s : State) : Result :=
  let B :=
    match concatData s.cfg.concat s.mask1 s.mask2 (s.readT rs1) (s.readT rs2) with
    | some out => Tensor.ofBytes fun k => (out[k]?).getD (s.unassignedByte rd k)
    | none => Tensor.ofBytes s.anyByte
  .next ((s.writeT rd B).drew 1024).advancePc

/-- `tl.concat.0` (R122) -/
def execTlConcat0 (rd rs1 rs2 : TReg) (s : State) : Result := concatInsn rd rs1 rs2 s

/-- `tl.concat.1` (R123) -/
def execTlConcat1 (rd rs1 rs2 : TReg) (s : State) : Result := concatInsn rd rs1 rs2 s

/-- `tl.concat.2` (R124) -/
def execTlConcat2 (rd rs1 rs2 : TReg) (s : State) : Result := concatInsn rd rs1 rs2 s

end Sys2Proof.Machine
end

