-- ==== Sys2Proof/Machine/TensorMemory.lean ====
section
/-! DEFINITION. The masked load and store (43_memory_access.md R150 to R157). -/

namespace Sys2Proof.Machine

/-- What the accesses of one instruction come to, before any is made (R154, R57, R65). -/
inductive AccessCheck where
  /-- every access is admitted and specified -/
  | admitted
  /-- an access that could be made is unspecified (R57, R65) -/
  | refuse (r : Refusal)
  /-- these accesses, at least one, are not admitted (R154) -/
  | notAdmitted (bad : List Access)
deriving DecidableEq, Repr

/-- Judges the accesses of one instruction. An access that is not admitted reaches no location, so only
admitted ones are refused; the order of the accesses being open, a refusal goes before a fault
(assumption log 18). -/
def checkAccesses (s : State) (kind : AccessKind) (accesses : List Access) : AccessCheck :=
  let made := accesses.filter fun a => admitsData s.cfg kind a.address
  match made.find? fun a => !isIdempotent s.cfg a.address with
  | some a => .refuse (.nonIdempotentLocation a.address)
  | none =>
    match made.find? fun a => kind == .write && inProgramText s a.address with
    | some a => .refuse (.storeIntoProgramText a.address)
    | none =>
      match accesses.filter fun a => !admitsData s.cfg kind a.address with
      | [] => .admitted
      | bad => .notAdmitted bad

/-- The address a trap reports: any one of the faulting ones (R154, R203). -/
def reportedAddress (s : State) (bad : List Access) : Word :=
  match bad[Config.freeChoice s.draws % bad.length]? with
  | some a => BitVec.ofNat 64 a.address
  | none => 0

/-- The accesses a faulting instruction made: any of the admitted ones (R154). -/
def partialAccesses (s : State) (kind : AccessKind) (accesses : List Access) : List Access :=
  accesses.filter fun a => admitsData s.cfg kind a.address && Config.freeBool (s.draws + a.index)

/-- The cells `tl.mload` reads. -/
def loadCells (m : Memory) (accesses : List Access) : List Host.Cell :=
  accesses.map fun a => (a.address, m.read a.address)

/-- The cells `tl.mstore` writes. -/
def storeCells (A : Tensor) (accesses : List Access) : List Host.Cell :=
  accesses.map fun a => (a.address, A.byte a.index)

/-- The state of a completed `tl.mload`: selected slices from memory, every other byte unassigned (R155). -/
def loaded (rd : TReg) (D : Four) (base : Word) (s : State) : State :=
  let B := Tensor.ofBytes fun k =>
    if accessed D s.loadMask k then s.mem.read (indexAddress s.cfg D s.loadMask base k)
    else s.unassignedByte rd k
  let r := s.record .read (loadCells s.mem (accessesOf s.cfg D s.loadMask base))
  ((r.writeT rd B).drew 1024).advancePc

/-- The state at the fault of a `tl.mload` (R154): every byte of `T[rd]` is `ANY8`, some reads were made. -/
def loadFaulted (rd : TReg) (accesses : List Access) (s : State) : State :=
  let r := s.record .read (loadCells s.mem (partialAccesses s .read accesses))
  (r.writeT rd (Tensor.ofBytes s.anyByte)).drew 1024

/-- The state with some stores made and recorded. -/
def stored (cells : List Host.Cell) (s : State) : State :=
  { s.record .write cells with mem := Memory.writeAll s.mem cells }

/-- `tl.mload rd, rs1, rs2` (R155): descriptor in `x[rs1]`, base in `x[rs2]`. -/
def execTlMload (rd : TReg) (rs1 rs2 : XReg) (s : State) : Result :=
  let d := s.readX32 rs1
  let D := shapeOf d
  let base := s.readX rs2
  if D.valid then
    let accesses := accessesOf s.cfg D s.loadMask base
    match checkAccesses s .read accesses with
    | .admitted => .next (loaded rd D base s)
    | .refuse r => .refused r
    | .notAdmitted bad =>
      .fault (raise .loadAccessFault (reportedAddress s bad) (loadFaulted rd accesses s))
  else .refused (.invalidDescriptor d)

/-- `tl.mstore rs1, rs2, rd` (R156): source `T[rs1]`, base in `x[rs2]`, descriptor in `x[rd]`, which is read.
After a fault each admitted byte of a selected slice is old or new (R154). -/
def execTlMstore (rs1 : TReg) (rs2 rd : XReg) (s : State) : Result :=
  let d := s.readX32 rd
  let D := shapeOf d
  let base := s.readX rs2
  if D.valid then
    let accesses := accessesOf s.cfg D s.storeMask base
    let A := s.readT rs1
    match checkAccesses s .write accesses with
    | .admitted => .next (stored (storeCells A accesses) s).advancePc
    | .refuse r => .refused r
    | .notAdmitted bad =>
      .fault (raise .storeAccessFault (reportedAddress s bad)
        ((stored (storeCells A (partialAccesses s .write accesses)) s).drew 1024))
  else .refused (.invalidDescriptor d)

end Sys2Proof.Machine
end

