-- ==== Sys2Proof/Machine/Transpose.lean ====
section
/-! DEFINITION. The six transposes (40_transpose.md R100 to R110). -/

namespace Sys2Proof.Machine

/-- Byte `j` of `XPOSE(A, D, a, b)` (R101): the result has shape `swap_ab(D)`, and the element at result
coordinates `e` is the source element at `swap_ab(e)`. -/
def xposeByte (A : Tensor) (D : Four) (a b : Dim) (j : Nat) : Byte :=
  A.byte (lin ((unlin j (D.swap a b)).swap a b) D)

/-- `XPOSE_INSN(rd, rs1, rs2, a, b)` (R103): an invalid descriptor is refused (R102); all source bytes are read
before `T[rd]` is written (R29); bytes past the tensor are unassigned. -/
def xposeInsn (a b : Dim) (rd rs1 : TReg) (rs2 : XReg) (s : State) : Result :=
  let d := s.readX32 rs2
  let D := shapeOf d
  if D.valid then
    let A := s.readT rs1
    let B := Tensor.ofBytes fun k =>
      if k < D.count then xposeByte A D a b k else s.unassignedByte rd k
    .next ((s.writeT rd B).drew 1024).advancePc
  else .refused (.invalidDescriptor d)

/-- `tl.xpose.01` (R104) -/
def execTlXpose01 (rd rs1 : TReg) (rs2 : XReg) (s : State) : Result :=
  xposeInsn .dim0 .dim1 rd rs1 rs2 s

/-- `tl.xpose.02` (R105) -/
def execTlXpose02 (rd rs1 : TReg) (rs2 : XReg) (s : State) : Result :=
  xposeInsn .dim0 .dim2 rd rs1 rs2 s

/-- `tl.xpose.03` (R106) -/
def execTlXpose03 (rd rs1 : TReg) (rs2 : XReg) (s : State) : Result :=
  xposeInsn .dim0 .dim3 rd rs1 rs2 s

/-- `tl.xpose.12` (R107) -/
def execTlXpose12 (rd rs1 : TReg) (rs2 : XReg) (s : State) : Result :=
  xposeInsn .dim1 .dim2 rd rs1 rs2 s

/-- `tl.xpose.13` (R108; rests on C1, assumption log 13) -/
def execTlXpose13 (rd rs1 : TReg) (rs2 : XReg) (s : State) : Result :=
  xposeInsn .dim1 .dim3 rd rs1 rs2 s

/-- `tl.xpose.23` (R109) -/
def execTlXpose23 (rd rs1 : TReg) (rs2 : XReg) (s : State) : Result :=
  xposeInsn .dim2 .dim3 rd rs1 rs2 s

end Sys2Proof.Machine
end

