-- ==== Sys2Proof/Machine/Zicsr.lean ====
section
/-! DEFINITION. The six Zicsr instructions (44_base_support.md R180 to R185). -/

namespace Sys2Proof.Machine

/-- What all six do: an unimplemented CSR address raises `IllegalInstruction` with the instruction word (R41,
R201); a read, where the form makes one, goes zero-extended to `x[rd]` (R31); a write, where the form
makes one, stores `update old`. `i` is the instruction itself, whose word a trap records. -/
def csrInsn (i : Instr) (rd : XReg) (csr : BitVec 12) (reads writes : Bool)
    (update : Word32 → Word32) (s : State) : Result :=
  match Csr.ofAddress csr with
  | none => .fault (raise .illegalInstruction (illegalValueOf s.cfg (encode i)) s)
  | some c =>
    let old := s.csrValue c
    let s1 := if reads then (s.afterCsrRead c).writeX rd (old.setWidth 64) else s
    let s2 := if writes then s1.writeCsr c (update old) else s1
    .next s2.advancePc

/-- `csrrw` (R180): no read when `rd = x0`. -/
def execCsrrw (rd : XReg) (csr : BitVec 12) (rs1 : XReg) (s : State) : Result :=
  let v := s.readX32 rs1
  csrInsn (.csrrw rd csr rs1) rd csr (rd != 0) true (fun _ => v) s

/-- `csrrs` (R181): no write when `rs1 = x0`. Where `rd = rs1`, `x[rs1]` is taken before `x[rd]` is written, although the
pseudocode writes first (D24; DESIGN CHOICE, assumption log 43). -/
def execCsrrs (rd : XReg) (csr : BitVec 12) (rs1 : XReg) (s : State) : Result :=
  let v := s.readX32 rs1
  csrInsn (.csrrs rd csr rs1) rd csr true (rs1 != 0) (fun old => old ||| v) s

/-- `csrrc` (R182): no write when `rs1 = x0`. Where `rd = rs1`, `x[rs1]` is taken before `x[rd]` is written, although the
pseudocode writes first (D24; DESIGN CHOICE, assumption log 43). -/
def execCsrrc (rd : XReg) (csr : BitVec 12) (rs1 : XReg) (s : State) : Result :=
  let v := s.readX32 rs1
  csrInsn (.csrrc rd csr rs1) rd csr true (rs1 != 0) (fun old => old &&& ~~~v) s

/-- `csrrwi` (R183): as `csrrw` with the zero-extended `uimm`. -/
def execCsrrwi (rd : XReg) (csr : BitVec 12) (uimm : BitVec 5) (s : State) : Result :=
  csrInsn (.csrrwi rd csr uimm) rd csr (rd != 0) true (fun _ => uimm.setWidth 32) s

/-- `csrrsi` (R184): no write when `uimm = 0`. -/
def execCsrrsi (rd : XReg) (csr : BitVec 12) (uimm : BitVec 5) (s : State) : Result :=
  csrInsn (.csrrsi rd csr uimm) rd csr true (uimm != 0) (fun old => old ||| uimm.setWidth 32) s

/-- `csrrci` (R185): no write when `uimm = 0`. -/
def execCsrrci (rd : XReg) (csr : BitVec 12) (uimm : BitVec 5) (s : State) : Result :=
  csrInsn (.csrrci rd csr uimm) rd csr true (uimm != 0) (fun old => old &&& ~~~(uimm.setWidth 32)) s

end Sys2Proof.Machine
end

