-- ==== Sys2Proof/Machine/Dispatch.lean ====
section
/-! DEFINITION. One arm per instruction: each calls its meaning. -/

namespace Sys2Proof.Machine

def exec (i : Instr) (s : State) : Host.Outcome State Fault Refusal :=
  match i with
  | .tlXpose01 rd rs1 rs2 => Sys2Proof.Machine.execTlXpose01 rd rs1 rs2 s
  | .tlXpose02 rd rs1 rs2 => Sys2Proof.Machine.execTlXpose02 rd rs1 rs2 s
  | .tlXpose03 rd rs1 rs2 => Sys2Proof.Machine.execTlXpose03 rd rs1 rs2 s
  | .tlXpose12 rd rs1 rs2 => Sys2Proof.Machine.execTlXpose12 rd rs1 rs2 s
  | .tlXpose13 rd rs1 rs2 => Sys2Proof.Machine.execTlXpose13 rd rs1 rs2 s
  | .tlXpose23 rd rs1 rs2 => Sys2Proof.Machine.execTlXpose23 rd rs1 rs2 s
  | .tlConcat0 rd rs1 rs2 => Sys2Proof.Machine.execTlConcat0 rd rs1 rs2 s
  | .tlConcat1 rd rs1 rs2 => Sys2Proof.Machine.execTlConcat1 rd rs1 rs2 s
  | .tlConcat2 rd rs1 rs2 => Sys2Proof.Machine.execTlConcat2 rd rs1 rs2 s
  | .tlAddi rd rs1 imm => Sys2Proof.Machine.execTlAddi rd rs1 imm s
  | .tlMload rd rs1 rs2 => Sys2Proof.Machine.execTlMload rd rs1 rs2 s
  | .tlMstore rs1 rs2 rd => Sys2Proof.Machine.execTlMstore rs1 rs2 rd s
  | .lui rd imm20 => Sys2Proof.Machine.execLui rd imm20 s
  | .addi rd rs1 imm => Sys2Proof.Machine.execAddi rd rs1 imm s
  | .bne rs1 rs2 offset => Sys2Proof.Machine.execBne rs1 rs2 offset s
  | .csrrw rd csr rs1 => Sys2Proof.Machine.execCsrrw rd csr rs1 s
  | .csrrs rd csr rs1 => Sys2Proof.Machine.execCsrrs rd csr rs1 s
  | .csrrc rd csr rs1 => Sys2Proof.Machine.execCsrrc rd csr rs1 s
  | .csrrwi rd csr uimm => Sys2Proof.Machine.execCsrrwi rd csr uimm s
  | .csrrsi rd csr uimm => Sys2Proof.Machine.execCsrrsi rd csr uimm s
  | .csrrci rd csr uimm => Sys2Proof.Machine.execCsrrci rd csr uimm s

end Sys2Proof.Machine
end

