-- ==== Sys2Proof/Machine/Fetch.lean ====
section
/-! DEFINITION. Fetching and decoding the instruction at the pc (60_exceptions.md R207, 70_reset_and_hazards.md
R236, R238), and the load of a program from outside the machine. -/

namespace Sys2Proof.Machine

/-- What the front end of a step finds. -/
inductive Fetched where
  /-- the pc is `HALT_PC`: the run has ended and the word there is not fetched (R238) -/
  | halted
  /-- the instruction to execute -/
  | instr (i : Instr)
  /-- fetch or decode raised an exception -/
  | trap (f : Fault)
deriving DecidableEq, Repr

/-- Whether the run has ended: `pc = HALT_PC` (R238). -/
def State.atHalt (s : State) : Bool :=
  match s.cfg.haltPc with
  | some h => s.cfg.xlen.wrap h == s.readPc
  | none => false

/-- The address of byte `k` of the instruction at the pc. -/
def State.fetchAddress (s : State) (k : Nat) : Nat := s.cfg.xlen.addr (s.readPc.toNat + k)

/-- The four bytes at the pc, the lowest address first (R50). -/
def State.fetchBytes (s : State) : List Byte :=
  [s.mem.read (s.fetchAddress 0), s.mem.read (s.fetchAddress 1),
   s.mem.read (s.fetchAddress 2), s.mem.read (s.fetchAddress 3)]

/-- The four bytes as the fetched word `w` (R50). -/
def State.fetchWord (s : State) : Word32 :=
  wordOfBytes (s.mem.read (s.fetchAddress 0)) (s.mem.read (s.fetchAddress 1))
    (s.mem.read (s.fetchAddress 2)) (s.mem.read (s.fetchAddress 3))

/-- Whether `MEM` admits execution of all four bytes (R204). -/
def State.fetchAdmitted (s : State) : Bool :=
  admitsFetch s.cfg (s.fetchAddress 0) && admitsFetch s.cfg (s.fetchAddress 1) &&
    admitsFetch s.cfg (s.fetchAddress 2) && admitsFetch s.cfg (s.fetchAddress 3)

/-- Whether the pc is a multiple of 4 (R53). -/
def State.pcAligned (s : State) : Bool := s.readPc.toNat % 4 == 0

/-- The front end of a step: end of run, then fetch, then decode (R207, R236, R238; assumption log 24). -/
def State.fetch (s : State) : Fetched :=
  if s.atHalt then .halted
  else if !s.pcAligned then .trap (raise .instructionAddressMisaligned s.readPc s)
  else if !s.fetchAdmitted then .trap (raise .instructionAccessFault s.readPc s)
  else
    match s.cfg.decode s.fetchBytes with
    | .ok i => .instr i
    | .reject _ => .trap (raise .illegalInstruction (illegalValueOf s.cfg s.fetchWord) s)

/-- Bytes placed at consecutive addresses from `a`, modulo `2^XLEN` (R50, R58). -/
def placeBytes (x : Xlen) (m : Memory) (a : Nat) : List Byte → Memory
  | [] => m
  | b :: bs => placeBytes x (Memory.write m (x.addr a) b) (a + 1) bs

/-- `s` with the word `w` loaded where the next instruction is fetched, as a program of that one instruction: its bytes
in memory and marked as text (R65), and the run not at its end (assumption logs 19, 23 and 33). -/
def State.placeWord (s : State) (w : Word32) : State :=
  { s with
    mem := placeBytes s.cfg.xlen s.mem s.readPc.toNat (bytesOfWord w)
    cfg := { s.cfg with
      text := s.ownWord :: s.cfg.text
      haltPc := if s.atHalt then none else s.cfg.haltPc } }

/-- A program loaded from outside at the pc (assumption log 33): its words in memory, its text marked as such
(R65), and `HALT_PC` the address after its last instruction (R10). -/
def State.loadProgram (s : State) (words : List Word32) : State :=
  { s with
    mem := placeBytes s.cfg.xlen s.mem s.readPc.toNat (words.flatMap bytesOfWord)
    cfg := { s.cfg with
      text := { base := s.readPc.toNat, size := 4 * words.length } :: s.cfg.text
      haltPc := some (s.cfg.xlen.wrap (s.readPc + BitVec.ofNat 64 (4 * words.length))) } }

end Sys2Proof.Machine
end

