-- ==== Sys2Proof/Machine/Step.lean ====
section
/-! DEFINITION. One step of the hart (70_reset_and_hazards.md R236): fetch, decode, execute. At `HALT_PC` the
run has ended and nothing changes (R238, assumption log 23). -/

namespace Sys2Proof.Machine

def step (s : State) : Host.Outcome State Fault Refusal :=
  match s.fetch with
  | .halted => .next s
  | .trap f => .fault f
  | .instr i => exec i s

/-- `s` with the instruction whose bits are `w` (the bits above `nbits` zero) stored where `step` fetches. The model's
own device: it stands for the load of a program of one instruction (assumption log 33). -/
def State.withFetchWord (s : State) (nbits w : Nat) : State :=
  s.placeWord (BitVec.ofNat 32 (w % 2 ^ nbits))

end Sys2Proof.Machine
end

