-- ==== Sys2Proof/Safety.lean ====
section
/-! DEFINITION. The terms claims use: the invariant of the machine, what one state keeps of another, the
conditions under which an instruction completes, and the families of instructions. -/

namespace Sys2Proof.Machine

/-! ### The invariant -/

/-- Cells held by strictly rising address: a set of cells in its one form (20_memory.md R67). -/
def risingCells (cells : List Host.Cell) : Prop := cells.Pairwise fun c d => c.1 < d.1

/-- What holds at reset and after every step: memory is canonical and lies in the address space, the pc and
every integer register have `XLEN` bits (R21, R23), the pc is a multiple of 4 (R53), the slot of `x0` is
untouched, and recorded events are sets (R67). -/
structure State.Inv (s : State) : Prop where
  mem_wf : Memory.wf s.mem = true
  mem_in_space : ∀ c ∈ s.mem, c.1 < 2 ^ s.cfg.xlen.bits
  pc_width : s.cfg.xlen.wrap s.pc = s.pc
  pc_aligned : s.pc.toNat % 4 = 0
  x_width : ∀ r : XReg, s.cfg.xlen.wrap (s.x[r.toNat]'r.isLt) = s.x[r.toNat]'r.isLt
  x0_zero : s.x[0] = 0
  events_sets : ∀ e ∈ s.events, risingCells e.cells

/-- Parameters under which reset meets the invariant: `RESET_PC` is an aligned `XLEN`-bit address. -/
def saneConfig (c : Config) : Prop := c.xlen.wrap c.resetPc = c.resetPc ∧ c.resetPc.toNat % 4 = 0

/-! ### What a next state keeps -/

/-- Every integer register reads as before. -/
def SameX (s t : State) : Prop := ∀ r, t.readX r = s.readX r

/-- Every integer register but `rd` reads as before. -/
def SameXBut (rd : XReg) (s t : State) : Prop := ∀ r, r ≠ rd → t.readX r = s.readX r

/-- Every tensor register is as before. -/
def SameT (s t : State) : Prop := ∀ r, t.readT r = s.readT r

/-- Every tensor register but `rd` is as before. -/
def SameTBut (rd : TReg) (s t : State) : Prop := ∀ r, r ≠ rd → t.readT r = s.readT r

/-- All eight CSRs are as before. -/
def SameCsrs (s t : State) : Prop := ∀ c, t.csr c = s.csr c

/-- All CSRs but `c` are as before. -/
def SameCsrsBut (c : Csr) (s t : State) : Prop := ∀ d, d ≠ c → t.csr d = s.csr d

/-- Every byte of memory reads as before. -/
def SameMem (s t : State) : Prop := ∀ a, t.mem.read a = s.mem.read a

/-- Every byte of memory outside the addresses `P` reads as before. -/
def SameMemOutside (P : Nat → Prop) (s t : State) : Prop := ∀ a, ¬ P a → t.mem.read a = s.mem.read a

/-- The frame of an instruction that writes `T[rd]` and the pc, and nothing else. -/
structure OnlyTensor (rd : TReg) (s t : State) : Prop where
  keepsX : SameX s t
  keepsT : SameTBut rd s t
  keepsCsrs : SameCsrs s t
  keepsMem : SameMem s t
  keepsCfg : t.cfg = s.cfg

/-- The frame of an instruction that writes `x[rd]` and the pc, and nothing else. -/
structure OnlyInteger (rd : XReg) (s t : State) : Prop where
  keepsX : SameXBut rd s t
  keepsT : SameT s t
  keepsCsrs : SameCsrs s t
  keepsMem : SameMem s t
  keepsEvents : t.events = s.events
  keepsCfg : t.cfg = s.cfg

/-- The frame of a Zicsr instruction on `c`: it writes `x[rd]`, the CSR `c` and the pc, and nothing else. -/
structure OnlyCsr (rd : XReg) (c : Csr) (s t : State) : Prop where
  keepsX : SameXBut rd s t
  keepsT : SameT s t
  keepsCsrs : SameCsrsBut c s t
  keepsMem : SameMem s t
  keepsEvents : t.events = s.events
  keepsCfg : t.cfg = s.cfg

/-- The frame of an instruction that stores to the addresses `P` and writes the pc, and nothing else. -/
structure OnlyMemory (P : Nat → Prop) (s t : State) : Prop where
  keepsX : SameX s t
  keepsT : SameT s t
  keepsCsrs : SameCsrs s t
  keepsMem : SameMemOutside P s t
  keepsCfg : t.cfg = s.cfg

/-- The pc is the next instruction's (R24). -/
def Advanced (s t : State) : Prop := t.pc = s.cfg.xlen.wrap (s.pc + 4)

/-! ### Tensor memory instructions -/

/-- The addresses of the selected slices (R152, R154): element `k` of a selected slice `i` lies at `a`. -/
def SelectedAddress (c : Config) (D : Four) (mask : Word32) (base : Word) (a : Nat) : Prop :=
  ∃ i k, i < D.d0 ∧ k < D.sliceSize ∧ selects mask i = true ∧ a = elementAddress c D mask base i k

/-- `MEM` admits every selected address, and each is idempotent (R56, R57). -/
def AllAdmitted (c : Config) (kind : AccessKind) (D : Four) (mask : Word32) (base : Word) : Prop :=
  ∀ a, SelectedAddress c D mask base a → admitsData c kind a = true ∧ isIdempotent c a = true

/-- No selected address is one of the program's own instructions (R65). -/
def NoText (s : State) (D : Four) (mask : Word32) (base : Word) : Prop :=
  ∀ a, SelectedAddress s.cfg D mask base a → inProgramText s a = false

/-- Exactly the accesses `cell` were recorded, as one set (R67). -/
def RecordedAs (kind : AccessKind) (cell : Host.Cell → Prop) (s t : State) : Prop :=
  ∃ cells, t.events = { pc := s.readPc, kind := kind, cells := cells } :: s.events ∧
    risingCells cells ∧ ∀ c, c ∈ cells ↔ cell c

/-- Some accesses, each one a `cell`, were recorded as one set (R67, R154). -/
def RecordedWithin (kind : AccessKind) (cell : Host.Cell → Prop) (s t : State) : Prop :=
  ∃ cells, t.events = { pc := s.readPc, kind := kind, cells := cells } :: s.events ∧
    risingCells cells ∧ ∀ c ∈ cells, cell c

/-- Byte `n` of `T[rd]` was given no value: under `TL_UNASSIGNED = unchanged` it is the old byte, under `any` a free draw
(00_scope.md R10, R16, D9; assumption log 8). -/
def LeftUnassigned (rd : TReg) (n : Nat) (s t : State) : Prop :=
  (s.cfg.unassigned = .unchanged → Tensor.byte (t.readT rd) n = Tensor.byte (s.readT rd) n) ∧
  (s.cfg.unassigned = .any → Tensor.byte (t.readT rd) n = Config.freeByte (s.draws + n))

/-- How many of the bits below `i` a mask has set. -/
def setBitsBelow (m : Word32) (i : Nat) : Nat := (List.range i).countP fun j => m.getLsbD j

/-! ### Fetching -/

/-- The run is not at its end, and the four bytes at the pc can be fetched (R204, R238, R53). -/
structure Fetchable (s : State) : Prop where
  running : s.atHalt = false
  aligned : s.pcAligned = true
  admitted : s.fetchAdmitted = true

/-! ### Families of instructions -/

/-- The six transposes with the dimensions each exchanges (R104 to R109). -/
def transposes : List ((TReg → TReg → XReg → Instr) × Dim × Dim) :=
  [(.tlXpose01, .dim0, .dim1), (.tlXpose02, .dim0, .dim2), (.tlXpose03, .dim0, .dim3),
   (.tlXpose12, .dim1, .dim2), (.tlXpose13, .dim1, .dim3), (.tlXpose23, .dim2, .dim3)]

/-- A dimension's number, 0 the outermost (R17). -/
def Dim.number : Dim → Nat
  | .dim0 => 0
  | .dim1 => 1
  | .dim2 => 2
  | .dim3 => 3

/-- The three concatenations (R122 to R124). -/
def concats : List (TReg → TReg → TReg → Instr) := [.tlConcat0, .tlConcat1, .tlConcat2]

/-- A TensorLoad instruction (R3). -/
def isTensorLoad : Instr → Bool
  | .tlXpose01 _ _ _ | .tlXpose02 _ _ _ | .tlXpose03 _ _ _ | .tlXpose12 _ _ _ | .tlXpose13 _ _ _
  | .tlXpose23 _ _ _ | .tlConcat0 _ _ _ | .tlConcat1 _ _ _ | .tlConcat2 _ _ _ | .tlAddi _ _ _
  | .tlMload _ _ _ | .tlMstore _ _ _ => true
  | .lui _ _ | .addi _ _ _ | .bne _ _ _ | .csrrw _ _ _ | .csrrs _ _ _ | .csrrc _ _ _
  | .csrrwi _ _ _ | .csrrsi _ _ _ | .csrrci _ _ _ => false

/-- A Zicsr instruction (R180 to R185). -/
def isZicsr : Instr → Bool
  | .csrrw _ _ _ | .csrrs _ _ _ | .csrrc _ _ _ | .csrrwi _ _ _ | .csrrsi _ _ _ | .csrrci _ _ _ => true
  | .tlXpose01 _ _ _ | .tlXpose02 _ _ _ | .tlXpose03 _ _ _ | .tlXpose12 _ _ _ | .tlXpose13 _ _ _
  | .tlXpose23 _ _ _ | .tlConcat0 _ _ _ | .tlConcat1 _ _ _ | .tlConcat2 _ _ _ | .tlAddi _ _ _
  | .tlMload _ _ _ | .tlMstore _ _ _ | .lui _ _ | .addi _ _ _ | .bne _ _ _ => false

/-- `tl.mstore`, the one instruction that stores (R54, R8). -/
def isStore : Instr → Bool
  | .tlMstore _ _ _ => true
  | .tlXpose01 _ _ _ | .tlXpose02 _ _ _ | .tlXpose03 _ _ _ | .tlXpose12 _ _ _ | .tlXpose13 _ _ _
  | .tlXpose23 _ _ _ | .tlConcat0 _ _ _ | .tlConcat1 _ _ _ | .tlConcat2 _ _ _ | .tlAddi _ _ _
  | .tlMload _ _ _ | .lui _ _ | .addi _ _ _ | .bne _ _ _ | .csrrw _ _ _ | .csrrs _ _ _
  | .csrrc _ _ _ | .csrrwi _ _ _ | .csrrsi _ _ _ | .csrrci _ _ _ => false

/-- The trap a fault outcome holds (R208). -/
def Fault.trapOf : Fault → Trap
  | .instructionAddressMisaligned t => t
  | .instructionAccessFault t => t
  | .illegalInstruction t => t
  | .loadAccessFault t => t
  | .storeAccessFault t => t

/-- What an illegal instruction with the word `w` comes to (R200, R201, R208): the trap records the code, the pc and
the word or 0, and nothing is changed. -/
def IllegalTrap (w : Word32) (s : State) (trap : Trap) : Prop :=
  trap.code = 2 ∧ trap.pc = s.readPc ∧ (trap.value = w.setWidth 64 ∨ trap.value = 0) ∧ trap.final = s

/-! ### Safe runs -/

/-- A step that is neither a fault nor a refusal. -/
def Safe (s : State) : Prop := ∃ t, step s = .next t

end Sys2Proof.Machine
end

