-- ==== Sys2Proof/Certificates/Slice0/Obligations.lean ====
section
/-! DEFINITION. The statements for the provers, each from the spec's numbered rules. -/

open Sys2Proof Sys2Proof.Machine

/-! ### Encoding -/

/-- R75: `w & mask = match` decides the row of every word, the rows are disjoint, and every other word of the
CUSTOM-2 space is reserved. The support rows (R171 to R185) are decided the same way. -/
def Obligations.OpcodeTableDecidesEveryWord : Prop :=
  (∀ row ∈ opcodeTable, ∀ w : Word32,
    w &&& row.mask = row.match' ↔ ∃ i, decodeWord w = .ok i ∧ i.mnemonic = row.mnemonic) ∧
  (opcodeTable.Pairwise fun r q =>
    ∀ w : Word32, ¬ (w &&& r.mask = r.match' ∧ w &&& q.mask = q.match')) ∧
  (∀ w : Word32, opcodeOf w = 0b1011011 → (∀ row ∈ tensorRows, w &&& row.mask ≠ row.match') →
    decodeWord w = .reject .reservedCustom2)

/-- R71, R72, R75, R170: decoding the word of any well-formed instruction gives the instruction back, every
operand at every value. -/
def Obligations.DecodeOfEncodeIsTheInstruction : Prop :=
  ∀ i : Instr, i.wellFormed = true →
    decodeWord (encode i) = .ok i ∧ decode (encodeBytes i) = .ok i

/-- The other direction: a word that decodes is the encoding of what it decodes to, which is well-formed. -/
def Obligations.EncodeOfDecodeIsTheWord : Prop :=
  ∀ (w : Word32) (i : Instr), decodeWord w = .ok i → i.wellFormed = true ∧ encode i = w

/-- Words written out from the spec's encodings, one per family (95_test_vectors.md section 2). -/
def Obligations.SampleWordsDecode : Prop :=
  decodeWord 0x62A100DB = .ok (.tlXpose01 1 2 10) ∧
  decodeWord 0x74A100DB = .ok (.tlXpose13 1 2 10) ∧
  decodeWord 0x84C5955B = .ok (.tlConcat2 10 11 12) ∧
  decodeWord 0xFFF322DB = .ok (.tlAddi 5 6 (-1)) ∧
  decodeWord 0xA0B530DB = .ok (.tlMload 1 10 11) ∧
  decodeWord 0xA2E1455B = .ok (.tlMstore 2 14 10) ∧
  decodeWord 0xFE029CE3 = .ok (.bne 5 0 (-8)) ∧
  decodeWord 0x811332F3 = .ok (.csrrc 5 0x811 6) ∧
  decodeWord 0x86C5955B = .reject .reservedCustom2

/-! ### A step: fetch, decode, execute -/

/-- R236: when the four bytes at the pc decode, on this hart, to an instruction, the step is that instruction's
execution; nothing is added around it. -/
def Obligations.StepRunsTheDecodedInstruction : Prop :=
  ∀ (s : State) (i : Instr), Fetchable s → s.cfg.decode s.fetchBytes = .ok i → step s = exec i s

/-- R80: a word of the CUSTOM-2 space that matches no row of R75 raises `IllegalInstruction`: the recorded value
is the word or 0 (R201), and no state is changed. -/
def Obligations.ReservedWordRaisesIllegalInstruction : Prop :=
  ∀ s : State, Fetchable s → opcodeOf s.fetchWord = 0b1011011 →
    (∀ row ∈ tensorRows, s.fetchWord &&& row.mask ≠ row.match') →
    ∃ trap : Trap, step s = .fault (.illegalInstruction trap) ∧ IllegalTrap s.fetchWord s trap

/-- R201: so does any word that matches no row of the whole table. -/
def Obligations.WordOfNoRowRaisesIllegalInstruction : Prop :=
  ∀ s : State, Fetchable s → (∀ row ∈ opcodeTable, s.fetchWord &&& row.mask ≠ row.match') →
    ∃ trap : Trap, step s = .fault (.illegalInstruction trap) ∧ IllegalTrap s.fetchWord s trap

/-- R82: an instruction of an absent sub-extension raises `IllegalInstruction`; with the default, which implements
all four, there is no such instruction. -/
def Obligations.AbsentSubextensionRaisesIllegalInstruction : Prop :=
  (∀ (s : State) (i : Instr), Fetchable s → decode s.fetchBytes = .ok i →
    s.cfg.subext.implements i = false →
    ∃ trap : Trap, step s = .fault (.illegalInstruction trap) ∧ IllegalTrap s.fetchWord s trap) ∧
  (∀ i : Instr, Config.default.subext.implements i = true)

/-- R204: a word at the pc that `MEM` does not admit for execution raises `InstructionAccessFault` with the pc as
value; under the default `MEM` none does. The pc is a multiple of 4, as R53 has it: at any other the model's fetch
raises first (assumption log 24). -/
def Obligations.UnadmittedFetchRaisesAccessFault : Prop :=
  (∀ s : State, s.atHalt = false → s.pcAligned = true →
    (∃ k, k < 4 ∧ admitsFetch s.cfg (s.fetchAddress k) = false) →
    step s = .fault (.instructionAccessFault { code := 1, pc := s.readPc, value := s.readPc, final := s })) ∧
  (∀ s : State, s.cfg.mem = Config.default.mem → s.fetchAdmitted = true)

/-- The model's treatment of a pc that is no multiple of 4 (U26, assumption log 24): the fetch raises
`InstructionAddressMisaligned`. -/
def Obligations.MisalignedPcRaisesMisaligned : Prop :=
  ∀ s : State, s.atHalt = false → s.readPc.toNat % 4 ≠ 0 →
    step s = .fault (.instructionAddressMisaligned { code := 0, pc := s.readPc, value := s.readPc, final := s })

/-- R238, with the model's convention for "ends" (assumption log 23): at `HALT_PC` nothing is fetched and nothing
changes, whatever word lies there. -/
def Obligations.RunEndsAtHaltPc : Prop :=
  ∀ (s : State) (h : Word), s.cfg.haltPc = some h → s.readPc = s.cfg.xlen.wrap h → step s = .next s

/-- R208, R209, R15: every trap is precise: the recorded pc is the raising instruction's, the code is the
exception's, and the pc is not advanced. -/
def Obligations.TrapsArePrecise : Prop :=
  ∀ (s : State) (f : Fault), step s = .fault f →
    f.trapOf.pc = s.readPc ∧ f.trapOf.final.pc = s.pc ∧ SameX s f.trapOf.final ∧
    SameCsrs s f.trapOf.final ∧ f.trapOf.final.cfg = s.cfg ∧
    (match f with
      | .instructionAddressMisaligned t => t.code = 0
      | .instructionAccessFault t => t.code = 1
      | .illegalInstruction t => t.code = 2
      | .loadAccessFault t => t.code = 5
      | .storeAccessFault t => t.code = 7)

/-- The model's choice: `withFetchWord` is the model's own device, which stands for the load of a program of one
instruction (assumption log 33). With a word that decodes on this hart placed by it at a fetchable, aligned pc,
the very next step runs exactly that instruction: `withFetchWord` clears `HALT_PC` where the pc is there (assumption
log 23), and a fetch sees the placed bytes at once (assumption log 36). -/
def Obligations.PlacedWordRuns : Prop :=
  ∀ (s : State) (w : Nat) (i : Instr), Memory.wf s.mem = true → s.pcAligned = true →
    s.fetchAdmitted = true → decodeTableWord 32 w = some i → s.cfg.subext.implements i = true →
    step (s.withFetchWord 32 w) = exec i (s.withFetchWord 32 w)

/-! ### Reset and the invariant -/

/-- What reset leaves: the pc at `RESET_PC` and `x0 = 0` (R45, R230); every other register at the model's chosen
zero and memory with nothing listed (assumption logs 3 to 6). -/
def Obligations.ResetState : Prop :=
  State.reset.pc = 0 ∧ State.reset.readX 0 = 0 ∧
  ∀ c : Config,
    (State.resetWith c).cfg = c ∧ (State.resetWith c).pc = c.resetPc ∧
    (∀ r, (State.resetWith c).readX r = 0) ∧
    (∀ r k, k < 1024 → Tensor.byte ((State.resetWith c).readT r) k = 0) ∧
    (∀ r, (State.resetWith c).csr r = 0) ∧ (∀ a, (State.resetWith c).mem.read a = 0) ∧
    (State.resetWith c).events = []

/-- The invariant holds at reset, for every `RESET_PC` that is an aligned address, the default among them. -/
def Obligations.InvariantAtReset : Prop :=
  saneConfig Config.default ∧ ∀ c : Config, saneConfig c → (State.resetWith c).Inv

/-- Every step keeps the invariant: memory canonical and inside the address space, pc and registers of `XLEN` bits,
the pc a multiple of 4, `x0`'s slot untouched, events held as sets. -/
def Obligations.InvariantIsKept : Prop :=
  ∀ s t : State, s.Inv → step s = .next t → t.Inv

/-- No step changes a parameter of the machine (R10). -/
def Obligations.ParametersNeverChange : Prop :=
  ∀ s t : State, step s = .next t → t.cfg = s.cfg

/-! ### Rules over all instructions -/

/-- R24: a TensorLoad instruction that completes sets the pc to pc + 4 modulo `2^XLEN`, and one that raises leaves
the pc as it is. -/
def Obligations.TensorLoadInstructionsAdvancePc : Prop :=
  ∀ (i : Instr) (s : State), isTensorLoad i = true →
    (∀ t, exec i s = .next t → t.pc = s.cfg.xlen.wrap (s.pc + 4)) ∧
    (∀ f, exec i s = .fault f → f.trapOf.final.pc = s.pc)

/-- R22: no TensorLoad instruction writes an integer register. -/
def Obligations.TensorLoadInstructionsKeepIntegerRegisters : Prop :=
  ∀ (i : Instr) (s t : State), isTensorLoad i = true → exec i s = .next t → t.x = s.x

/-- R28: no instruction of the base ISA or of Zicsr writes a tensor register, and neither does `tl.mstore`. -/
def Obligations.OtherInstructionsKeepTensorRegisters : Prop :=
  ∀ (i : Instr) (s t : State), isTensorLoad i = false ∨ isStore i = true → exec i s = .next t → t.t = s.t

/-- R54, R8: no instruction but `tl.mstore` changes memory. -/
def Obligations.OnlyMstoreChangesMemory : Prop :=
  ∀ (i : Instr) (s t : State), isStore i = false → exec i s = .next t → t.mem = s.mem

/-- R32, R233: the CSRs are written only by the Zicsr instructions; no other instruction changes a mask. -/
def Obligations.OnlyZicsrChangesCsrs : Prop :=
  ∀ (i : Instr) (s t : State), isZicsr i = false → exec i s = .next t → SameCsrs s t

/-- R33 to R35 (D10, assumption log 12): what a TensorLoad instruction does does not depend on `tl_tensor_shape`,
`tl_transpose_perm` or `tl_xpose_config`: other contents give the same next state but for those contents. -/
def Obligations.ShapeAndConfigCsrsAreInert : Prop :=
  ∀ (i : Instr) (s t : State) (a b c : Word32), isTensorLoad i = true → exec i s = .next t →
    exec i { s with tensorShape := a, transposePerm := b, xposeConfig := c } =
      .next { t with tensorShape := a, transposePerm := b, xposeConfig := c }

/-! ### Transposes (R100 to R110) -/

/-- R104: `tl.xpose.01` swaps dimensions 0 and 1. -/
def Obligations.Xpose01SwapsDimensions : Prop :=
  ∀ (rd rs1 : TReg) (rs2 : XReg) (s : State),
    let D := shapeOf (s.readX32 rs2)
    encode (.tlXpose01 rd rs1 rs2) &&& 0xFE00707F = 0x6200005B ∧
    (D.valid = true → ∃ t, exec (.tlXpose01 rd rs1 rs2) s = .next t ∧
      (∀ i j k l, i < D.d0 → j < D.d1 → k < D.d2 → l < D.d3 →
        Tensor.byte (t.readT rd) (j * (D.d0 * D.d2 * D.d3) + i * (D.d2 * D.d3) + k * D.d3 + l) =
          Tensor.byte (s.readT rs1) (i * (D.d1 * D.d2 * D.d3) + j * (D.d2 * D.d3) + k * D.d3 + l)) ∧
      (∀ n, D.count ≤ n → n < 1024 → Tensor.byte (t.readT rd) n = s.unassignedByte rd n) ∧
      OnlyTensor rd s t ∧ t.events = s.events ∧ Advanced s t) ∧
    (D.valid = false →
      exec (.tlXpose01 rd rs1 rs2) s = .refused (.invalidDescriptor (s.readX32 rs2)))

/-- R105: `tl.xpose.02` swaps dimensions 0 and 2. -/
def Obligations.Xpose02SwapsDimensions : Prop :=
  ∀ (rd rs1 : TReg) (rs2 : XReg) (s : State),
    let D := shapeOf (s.readX32 rs2)
    encode (.tlXpose02 rd rs1 rs2) &&& 0xFE00707F = 0x6400005B ∧
    (D.valid = true → ∃ t, exec (.tlXpose02 rd rs1 rs2) s = .next t ∧
      (∀ i j k l, i < D.d0 → j < D.d1 → k < D.d2 → l < D.d3 →
        Tensor.byte (t.readT rd) (k * (D.d1 * D.d0 * D.d3) + j * (D.d0 * D.d3) + i * D.d3 + l) =
          Tensor.byte (s.readT rs1) (i * (D.d1 * D.d2 * D.d3) + j * (D.d2 * D.d3) + k * D.d3 + l)) ∧
      (∀ n, D.count ≤ n → n < 1024 → Tensor.byte (t.readT rd) n = s.unassignedByte rd n) ∧
      OnlyTensor rd s t ∧ t.events = s.events ∧ Advanced s t) ∧
    (D.valid = false →
      exec (.tlXpose02 rd rs1 rs2) s = .refused (.invalidDescriptor (s.readX32 rs2)))

/-- R106: `tl.xpose.03` swaps dimensions 0 and 3. -/
def Obligations.Xpose03SwapsDimensions : Prop :=
  ∀ (rd rs1 : TReg) (rs2 : XReg) (s : State),
    let D := shapeOf (s.readX32 rs2)
    encode (.tlXpose03 rd rs1 rs2) &&& 0xFE00707F = 0x6600005B ∧
    (D.valid = true → ∃ t, exec (.tlXpose03 rd rs1 rs2) s = .next t ∧
      (∀ i j k l, i < D.d0 → j < D.d1 → k < D.d2 → l < D.d3 →
        Tensor.byte (t.readT rd) (l * (D.d1 * D.d2 * D.d0) + j * (D.d2 * D.d0) + k * D.d0 + i) =
          Tensor.byte (s.readT rs1) (i * (D.d1 * D.d2 * D.d3) + j * (D.d2 * D.d3) + k * D.d3 + l)) ∧
      (∀ n, D.count ≤ n → n < 1024 → Tensor.byte (t.readT rd) n = s.unassignedByte rd n) ∧
      OnlyTensor rd s t ∧ t.events = s.events ∧ Advanced s t) ∧
    (D.valid = false →
      exec (.tlXpose03 rd rs1 rs2) s = .refused (.invalidDescriptor (s.readX32 rs2)))

/-- R107: `tl.xpose.12` swaps dimensions 1 and 2. -/
def Obligations.Xpose12SwapsDimensions : Prop :=
  ∀ (rd rs1 : TReg) (rs2 : XReg) (s : State),
    let D := shapeOf (s.readX32 rs2)
    encode (.tlXpose12 rd rs1 rs2) &&& 0xFE00707F = 0x7200005B ∧
    (D.valid = true → ∃ t, exec (.tlXpose12 rd rs1 rs2) s = .next t ∧
      (∀ i j k l, i < D.d0 → j < D.d1 → k < D.d2 → l < D.d3 →
        Tensor.byte (t.readT rd) (i * (D.d2 * D.d1 * D.d3) + k * (D.d1 * D.d3) + j * D.d3 + l) =
          Tensor.byte (s.readT rs1) (i * (D.d1 * D.d2 * D.d3) + j * (D.d2 * D.d3) + k * D.d3 + l)) ∧
      (∀ n, D.count ≤ n → n < 1024 → Tensor.byte (t.readT rd) n = s.unassignedByte rd n) ∧
      OnlyTensor rd s t ∧ t.events = s.events ∧ Advanced s t) ∧
    (D.valid = false →
      exec (.tlXpose12 rd rs1 rs2) s = .refused (.invalidDescriptor (s.readX32 rs2)))

/-- R108: `tl.xpose.13` swaps dimensions 1 and 3; its bit pattern rests on the resolved conflict C1 (assumption
log 13). -/
def Obligations.Xpose13SwapsDimensions : Prop :=
  ∀ (rd rs1 : TReg) (rs2 : XReg) (s : State),
    let D := shapeOf (s.readX32 rs2)
    encode (.tlXpose13 rd rs1 rs2) &&& 0xFE00707F = 0x7400005B ∧
    (D.valid = true → ∃ t, exec (.tlXpose13 rd rs1 rs2) s = .next t ∧
      (∀ i j k l, i < D.d0 → j < D.d1 → k < D.d2 → l < D.d3 →
        Tensor.byte (t.readT rd) (i * (D.d3 * D.d2 * D.d1) + l * (D.d2 * D.d1) + k * D.d1 + j) =
          Tensor.byte (s.readT rs1) (i * (D.d1 * D.d2 * D.d3) + j * (D.d2 * D.d3) + k * D.d3 + l)) ∧
      (∀ n, D.count ≤ n → n < 1024 → Tensor.byte (t.readT rd) n = s.unassignedByte rd n) ∧
      OnlyTensor rd s t ∧ t.events = s.events ∧ Advanced s t) ∧
    (D.valid = false →
      exec (.tlXpose13 rd rs1 rs2) s = .refused (.invalidDescriptor (s.readX32 rs2)))

/-- R109: `tl.xpose.23` swaps dimensions 2 and 3. -/
def Obligations.Xpose23SwapsDimensions : Prop :=
  ∀ (rd rs1 : TReg) (rs2 : XReg) (s : State),
    let D := shapeOf (s.readX32 rs2)
    encode (.tlXpose23 rd rs1 rs2) &&& 0xFE00707F = 0x7600005B ∧
    (D.valid = true → ∃ t, exec (.tlXpose23 rd rs1 rs2) s = .next t ∧
      (∀ i j k l, i < D.d0 → j < D.d1 → k < D.d2 → l < D.d3 →
        Tensor.byte (t.readT rd) (i * (D.d1 * D.d3 * D.d2) + j * (D.d3 * D.d2) + l * D.d2 + k) =
          Tensor.byte (s.readT rs1) (i * (D.d1 * D.d2 * D.d3) + j * (D.d2 * D.d3) + k * D.d3 + l)) ∧
      (∀ n, D.count ≤ n → n < 1024 → Tensor.byte (t.readT rd) n = s.unassignedByte rd n) ∧
      OnlyTensor rd s t ∧ t.events = s.events ∧ Advanced s t) ∧
    (D.valid = false →
      exec (.tlXpose23 rd rs1 rs2) s = .refused (.invalidDescriptor (s.readX32 rs2)))

/-- R102: a transpose whose descriptor is invalid (an extent of 0, or more than 1024 elements) is refused, `x0` as
descriptor register among them. -/
def Obligations.TransposeOfInvalidDescriptorIsRefused : Prop :=
  ∀ p ∈ transposes, ∀ (rd rs1 : TReg) (s : State),
    (∀ rs2 : XReg,
      (let D := shapeOf (s.readX32 rs2)
       D.d0 = 0 ∨ D.d1 = 0 ∨ D.d2 = 0 ∨ D.d3 = 0 ∨ 1024 < D.d0 * D.d1 * D.d2 * D.d3) →
      exec (p.1 rd rs1 rs2) s = .refused (.invalidDescriptor (s.readX32 rs2))) ∧
    exec (p.1 rd rs1 0) s = .refused (.invalidDescriptor 0)

/-- R110 (1): a transpose undoes itself: transposing the result again, with the descriptor of the result's shape,
gives the source back at the indices of the tensor. -/
def Obligations.TransposeTwiceIsTheSource : Prop :=
  ∀ p ∈ transposes, ∀ (rd rs1 rd' : TReg) (rs2 rs2' : XReg) (s t u : State),
    exec (p.1 rd rs1 rs2) s = .next t → exec (p.1 rd' rd rs2') t = .next u →
    shapeOf (t.readX32 rs2') = (shapeOf (s.readX32 rs2)).swap p.2.1 p.2.2 →
    ∀ k, k < (shapeOf (s.readX32 rs2)).count →
      Tensor.byte (u.readT rd') k = Tensor.byte (s.readT rs1) k

/-- R110 (2): the bytes of the transposed tensor are a permutation of the source's. -/
def Obligations.TransposePermutesTheBytes : Prop :=
  ∀ p ∈ transposes, ∀ (rd rs1 : TReg) (rs2 : XReg) (s t : State), exec (p.1 rd rs1 rs2) s = .next t →
    ((List.range (shapeOf (s.readX32 rs2)).count).map (Tensor.byte (t.readT rd))).Perm
      ((List.range (shapeOf (s.readX32 rs2)).count).map (Tensor.byte (s.readT rs1)))

/-- R110 (3): where both swapped extents are 1, or one of them and every extent between them, the bytes of the tensor
come out as they went in. -/
def Obligations.TransposeOfUnitExtentsKeepsTheBytes : Prop :=
  ∀ p ∈ transposes, ∀ (rd rs1 : TReg) (rs2 : XReg) (s t : State), exec (p.1 rd rs1 rs2) s = .next t →
    let D := shapeOf (s.readX32 rs2)
    ((D.get p.2.1 = 1 ∧ D.get p.2.2 = 1) ∨
      ((D.get p.2.1 = 1 ∨ D.get p.2.2 = 1) ∧
        ∀ k : Dim, p.2.1.number < k.number → k.number < p.2.2.number → D.get k = 1)) →
    ∀ n, n < D.count → Tensor.byte (t.readT rd) n = Tensor.byte (s.readT rs1) n

/-- R110 (4): the transposed bytes depend on the low 32 bits of the descriptor register and on the source's bytes of
the tensor, and on nothing else: not on the source's other bytes, the old destination, a CSR, memory or
a parameter. -/
def Obligations.TransposeDependsOnTensorAndDescriptorOnly : Prop :=
  ∀ p ∈ transposes, ∀ (rd rs1 : TReg) (rs2 : XReg) (s s' t t' : State),
    exec (p.1 rd rs1 rs2) s = .next t → exec (p.1 rd rs1 rs2) s' = .next t' →
    s'.readX32 rs2 = s.readX32 rs2 →
    (∀ n, n < (shapeOf (s.readX32 rs2)).count →
      Tensor.byte (s'.readT rs1) n = Tensor.byte (s.readT rs1) n) →
    ∀ n, n < (shapeOf (s.readX32 rs2)).count → Tensor.byte (t'.readT rd) n = Tensor.byte (t.readT rd) n

/-! ### Concatenations (R120 to R126) -/

/-- R121 to R124: each concatenation packs the valid elements of the two sources, in order, from byte 0 of the
destination: a valid element's place is the number of valid elements before it. This rests on the literal
reading of R125 (93_implementation_defined.md U5, assumption log 11), the default. -/
def Obligations.ConcatPacksValidElements : Prop :=
  (∀ rd rs1 rs2 : TReg,
    encode (.tlConcat0 rd rs1 rs2) &&& 0xFE00707F = 0x8000105B ∧
    encode (.tlConcat1 rd rs1 rs2) &&& 0xFE00707F = 0x8200105B ∧
    encode (.tlConcat2 rd rs1 rs2) &&& 0xFE00707F = 0x8400105B) ∧
  ∀ op ∈ concats, ∀ (rd rs1 rs2 : TReg) (s : State), s.cfg.concat = .literal →
    ∃ t, exec (op rd rs1 rs2) s = .next t ∧
      (∀ i, i < 32 → s.mask1.getLsbD i = true →
        Tensor.byte (t.readT rd) (setBitsBelow s.mask1 i) = Tensor.byte (s.readT rs1) i) ∧
      (∀ i, i < 32 → s.mask2.getLsbD i = true →
        Tensor.byte (t.readT rd) (setBitsBelow s.mask1 32 + setBitsBelow s.mask2 i) =
          Tensor.byte (s.readT rs2) i) ∧
      (∀ k, setBitsBelow s.mask1 32 + setBitsBelow s.mask2 32 ≤ k → k < 1024 →
        Tensor.byte (t.readT rd) k = s.unassignedByte rd k) ∧
      OnlyTensor rd s t ∧ t.events = s.events ∧ Advanced s t

/-- The frame of the concatenations under every reading of their data function (R125, assumption log 11): they
always complete, write nothing but `T[rd]` and the pc, and spend the 1024 draws of R16 (assumption log 8); under the
reading whose data the spec does not state every byte of `T[rd]` is a free draw. -/
def Obligations.ConcatAlwaysCompletes : Prop :=
  ∀ op ∈ concats, ∀ (rd rs1 rs2 : TReg) (s : State),
    ∃ t, exec (op rd rs1 rs2) s = .next t ∧ OnlyTensor rd s t ∧ t.events = s.events ∧ Advanced s t ∧
      t.draws = s.draws + 1024 ∧
      (s.cfg.concat = .unstated →
        ∀ n, n < 1024 → Tensor.byte (t.readT rd) n = Config.freeByte (s.draws + n))

/-! ### Arithmetic (R140 to R143) -/

/-- R140: every one of the 1024 bytes of `T[rd]` is the element plus the signed immediate, clamped to 0..255. -/
def Obligations.TlAddiSaturatesEveryByte : Prop :=
  ∀ (rd rs1 : TReg) (imm : BitVec 12) (s : State),
    encode (.tlAddi rd rs1 imm) &&& 0x0000707F = 0x0000205B ∧
    ∃ t, exec (.tlAddi rd rs1 imm) s = .next t ∧
      (∀ k, k < 1024 →
        ((Tensor.byte (t.readT rd) k).toNat : Int) =
          max 0 (min 255 ((Tensor.byte (s.readT rs1) k).toNat + imm.toInt))) ∧
      OnlyTensor rd s t ∧ t.events = s.events ∧ Advanced s t

/-- R141 (4), (5): `imm = 0` copies the register, `imm >= 255` fills it with 255, `imm <= -255` clears it. -/
def Obligations.TlAddiExtremes : Prop :=
  ∀ (rd rs1 : TReg) (imm : BitVec 12) (s t : State), exec (.tlAddi rd rs1 imm) s = .next t →
    (imm = 0 → t.readT rd = s.readT rs1) ∧
    (255 ≤ imm.toInt → ∀ k, k < 1024 → Tensor.byte (t.readT rd) k = 255) ∧
    (imm.toInt ≤ -255 → ∀ k, k < 1024 → Tensor.byte (t.readT rd) k = 0)

/-! ### Tensor memory (R150 to R157) -/

/-- R155: `tl.mload` completes when `MEM` admits every selected address; selected slices come from memory, and every
other byte is unassigned. An invalid descriptor is refused (R153), and where no selected address is marked
non-idempotent an address not admitted raises `LoadAccessFault` with it (R154). What is recorded, and what a
selected address that is marked non-idempotent comes to, are statements of their own. -/
def Obligations.MloadLoadsSelectedSlices : Prop :=
  ∀ (rd : TReg) (rs1 rs2 : XReg) (s : State),
    let D := shapeOf (s.readX32 rs1)
    let base := s.readX rs2
    let Selected := SelectedAddress s.cfg D s.loadMask base
    encode (.tlMload rd rs1 rs2) &&& 0xFE00707F = 0xA000305B ∧
    (D.valid = true → AllAdmitted s.cfg .read D s.loadMask base →
      ∃ t, exec (.tlMload rd rs1 rs2) s = .next t ∧
        (∀ i k, i < D.d0 → k < D.d1 * D.d2 * D.d3 →
          Tensor.byte (t.readT rd) (i * (D.d1 * D.d2 * D.d3) + k) =
            if i < 32 ∧ s.loadMask.getLsbD i = true then
              s.mem.read (elementAddress s.cfg D s.loadMask base i k)
            else s.unassignedByte rd (i * (D.d1 * D.d2 * D.d3) + k)) ∧
        (∀ n, D.count ≤ n → n < 1024 → Tensor.byte (t.readT rd) n = s.unassignedByte rd n) ∧
        OnlyTensor rd s t ∧ Advanced s t) ∧
    (D.valid = false → exec (.tlMload rd rs1 rs2) s = .refused (.invalidDescriptor (s.readX32 rs1))) ∧
    (D.valid = true → (∀ a, Selected a → isIdempotent s.cfg a = true) →
      (∃ a, Selected a ∧ admitsData s.cfg .read a = false) →
      ∃ trap a, exec (.tlMload rd rs1 rs2) s = .fault (.loadAccessFault trap) ∧
        Selected a ∧ admitsData s.cfg .read a = false ∧ trap.value = BitVec.ofNat 64 a)

/-- R154, R203: `tl.mload` with a selected address `MEM` does not admit, and no admitted one that is not
idempotent, raises `LoadAccessFault`: the value is a faulting address, memory and every register but `T[rd]`
are as before, `T[rd]` is wholly unspecified and its draws are spent (R16, assumption log 8). That an address both not
admitted and marked non-idempotent faults is the model's choice (assumption log 18), and so is the record of the
accesses that were made, a set of admitted selected ones (R67, assumption logs 22 and 30). -/
def Obligations.MloadFaultsOnUnadmittedAddress : Prop :=
  ∀ (rd : TReg) (rs1 rs2 : XReg) (s : State),
    let D := shapeOf (s.readX32 rs1)
    let base := s.readX rs2
    D.valid = true →
    (∀ a, SelectedAddress s.cfg D s.loadMask base a → admitsData s.cfg .read a = true →
      isIdempotent s.cfg a = true) →
    (∃ a, SelectedAddress s.cfg D s.loadMask base a ∧ admitsData s.cfg .read a = false) →
    ∃ trap : Trap, exec (.tlMload rd rs1 rs2) s = .fault (.loadAccessFault trap) ∧
      trap.code = 5 ∧ trap.pc = s.readPc ∧
      (∃ a, SelectedAddress s.cfg D s.loadMask base a ∧ admitsData s.cfg .read a = false ∧
        trap.value = BitVec.ofNat 64 a) ∧
      OnlyTensor rd s trap.final ∧ trap.final.pc = s.pc ∧
      (∀ k, k < 1024 → Tensor.byte (trap.final.readT rd) k = Config.freeByte (s.draws + k)) ∧
      trap.final.draws = s.draws + 1024 ∧
      RecordedWithin .read (fun c => SelectedAddress s.cfg D s.loadMask base c.1 ∧
        admitsData s.cfg .read c.1 = true ∧ c.2 = s.mem.read c.1) s trap.final

/-- R156: `tl.mstore` completes when `MEM` admits every selected address and none is program text; element `k` of
a selected slice `i` goes to `addr(i, k)`, no other byte of memory changes, and no register changes. An invalid
descriptor is refused (R153), and where no selected address is marked non-idempotent or is program text an address
not admitted raises `StoreAccessFault` with it (R154). Which addresses are program text is the model's choice: the
word at the pc and the spans the launch marked (R65, assumption log 19). -/
def Obligations.MstoreStoresSelectedSlices : Prop :=
  ∀ (rs1 : TReg) (rs2 rd : XReg) (s : State), Memory.wf s.mem = true →
    let D := shapeOf (s.readX32 rd)
    let base := s.readX rs2
    let Selected := SelectedAddress s.cfg D s.storeMask base
    encode (.tlMstore rs1 rs2 rd) &&& 0xFE00707F = 0xA200405B ∧
    (D.valid = true → AllAdmitted s.cfg .write D s.storeMask base → NoText s D s.storeMask base →
      ∃ t, exec (.tlMstore rs1 rs2 rd) s = .next t ∧
        (∀ i k, i < D.d0 → k < D.d1 * D.d2 * D.d3 → i < 32 → s.storeMask.getLsbD i = true →
          t.mem.read (elementAddress s.cfg D s.storeMask base i k) =
            Tensor.byte (s.readT rs1) (i * (D.d1 * D.d2 * D.d3) + k)) ∧
        OnlyMemory Selected s t ∧ Advanced s t) ∧
    (D.valid = false → exec (.tlMstore rs1 rs2 rd) s = .refused (.invalidDescriptor (s.readX32 rd))) ∧
    (D.valid = true → (∀ a, Selected a → isIdempotent s.cfg a = true) → NoText s D s.storeMask base →
      (∃ a, Selected a ∧ admitsData s.cfg .write a = false) →
      ∃ trap a, exec (.tlMstore rs1 rs2 rd) s = .fault (.storeAccessFault trap) ∧
        Selected a ∧ admitsData s.cfg .write a = false ∧ trap.value = BitVec.ofNat 64 a)

/-- R154, R203: `tl.mstore` with a selected address `MEM` does not admit, and no admitted one that is not
idempotent or is program text, raises `StoreAccessFault`: the value is a faulting address, each admitted byte of
a selected slice is old or new, every other byte and every register is as before. That an address both not admitted
and marked non-idempotent or program text faults is the model's choice (assumption log 18), and so are which addresses
are program text (assumption log 19), the draws spent (assumption log 8) and the record of the accesses that were
made, a set of admitted selected ones (R67, assumption logs 22 and 30). -/
def Obligations.MstoreFaultsOnUnadmittedAddress : Prop :=
  ∀ (rs1 : TReg) (rs2 rd : XReg) (s : State),
    let D := shapeOf (s.readX32 rd)
    let base := s.readX rs2
    Memory.wf s.mem = true → D.valid = true →
    (∀ a, SelectedAddress s.cfg D s.storeMask base a → admitsData s.cfg .write a = true →
      isIdempotent s.cfg a = true ∧ inProgramText s a = false) →
    (∃ a, SelectedAddress s.cfg D s.storeMask base a ∧ admitsData s.cfg .write a = false) →
    ∃ trap : Trap, exec (.tlMstore rs1 rs2 rd) s = .fault (.storeAccessFault trap) ∧
      trap.code = 7 ∧ trap.pc = s.readPc ∧
      (∃ a, SelectedAddress s.cfg D s.storeMask base a ∧ admitsData s.cfg .write a = false ∧
        trap.value = BitVec.ofNat 64 a) ∧
      (∀ i k, i < D.d0 → k < D.d1 * D.d2 * D.d3 → selects s.storeMask i = true →
        let a := elementAddress s.cfg D s.storeMask base i k
        trap.final.mem.read a = s.mem.read a ∨
          (admitsData s.cfg .write a = true ∧
            trap.final.mem.read a = Tensor.byte (s.readT rs1) (i * (D.d1 * D.d2 * D.d3) + k))) ∧
      OnlyMemory (fun a => SelectedAddress s.cfg D s.storeMask base a ∧ admitsData s.cfg .write a = true)
        s trap.final ∧
      trap.final.pc = s.pc ∧ trap.final.draws = s.draws + 1024 ∧
      RecordedWithin .write (fun c => SelectedAddress s.cfg D s.storeMask base c.1 ∧
        admitsData s.cfg .write c.1 = true ∧ c.2 = trap.final.mem.read c.1) s trap.final

/-- R153: `tl.mload` and `tl.mstore` with an invalid descriptor are refused, `x0` as descriptor register among
them. -/
def Obligations.MemoryAccessOfInvalidDescriptorIsRefused : Prop :=
  ∀ s : State,
    (∀ (t : TReg) (d b : XReg),
      (let D := shapeOf (s.readX32 d)
       D.d0 = 0 ∨ D.d1 = 0 ∨ D.d2 = 0 ∨ D.d3 = 0 ∨ 1024 < D.d0 * D.d1 * D.d2 * D.d3) →
      exec (.tlMload t d b) s = .refused (.invalidDescriptor (s.readX32 d)) ∧
      exec (.tlMstore t b d) s = .refused (.invalidDescriptor (s.readX32 d))) ∧
    (∀ (t : TReg) (b : XReg),
      exec (.tlMload t 0 b) s = .refused (.invalidDescriptor 0) ∧
      exec (.tlMstore t b 0) s = .refused (.invalidDescriptor 0))

/-- R57, with the model's order of checks (assumption log 18): an access that would be made to a location
`MEM` marks non-idempotent is refused, for the load and the store, naming a selected address that `MEM` admits and
marks so. -/
def Obligations.NonIdempotentAccessIsRefused : Prop :=
  (∀ (rd : TReg) (rs1 rs2 : XReg) (s : State),
    (shapeOf (s.readX32 rs1)).valid = true →
    (∃ a, SelectedAddress s.cfg (shapeOf (s.readX32 rs1)) s.loadMask (s.readX rs2) a ∧
      admitsData s.cfg .read a = true ∧ isIdempotent s.cfg a = false) →
    ∃ a, exec (.tlMload rd rs1 rs2) s = .refused (.nonIdempotentLocation a) ∧
      SelectedAddress s.cfg (shapeOf (s.readX32 rs1)) s.loadMask (s.readX rs2) a ∧
      admitsData s.cfg .read a = true ∧ isIdempotent s.cfg a = false) ∧
  (∀ (rs1 : TReg) (rs2 rd : XReg) (s : State),
    (shapeOf (s.readX32 rd)).valid = true →
    (∃ a, SelectedAddress s.cfg (shapeOf (s.readX32 rd)) s.storeMask (s.readX rs2) a ∧
      admitsData s.cfg .write a = true ∧ isIdempotent s.cfg a = false) →
    ∃ a, exec (.tlMstore rs1 rs2 rd) s = .refused (.nonIdempotentLocation a) ∧
      SelectedAddress s.cfg (shapeOf (s.readX32 rd)) s.storeMask (s.readX rs2) a ∧
      admitsData s.cfg .write a = true ∧ isIdempotent s.cfg a = false)

/-- R65, with the model's order of checks (assumption log 18) and the model's account of the text (assumption log 19):
a `tl.mstore` that would store into the program's own instructions is refused, naming a selected address that `MEM`
admits and that is program text (by this name when no access of it is refused under R57). The text is the word at
the pc, and every span the launch marked, modulo `2^XLEN`. -/
def Obligations.StoreIntoProgramTextIsRefused : Prop :=
  ∀ (rs1 : TReg) (rs2 rd : XReg) (s : State),
    (shapeOf (s.readX32 rd)).valid = true →
    (∀ a, SelectedAddress s.cfg (shapeOf (s.readX32 rd)) s.storeMask (s.readX rs2) a →
      admitsData s.cfg .write a = true → isIdempotent s.cfg a = true) →
    (∃ a, SelectedAddress s.cfg (shapeOf (s.readX32 rd)) s.storeMask (s.readX rs2) a ∧
      admitsData s.cfg .write a = true ∧
      ∃ p ∈ { base := s.readPc.toNat, size := 4 } :: s.cfg.text, ∃ k, k < p.size ∧
        a = (p.base + k) % 2 ^ s.cfg.xlen.bits) →
    ∃ a, exec (.tlMstore rs1 rs2 rd) s = .refused (.storeIntoProgramText a) ∧
      SelectedAddress s.cfg (shapeOf (s.readX32 rd)) s.storeMask (s.readX rs2) a ∧
      admitsData s.cfg .write a = true ∧ inProgramText s a = true

/-- R157 (1): a `tl.mstore` followed by a `tl.mload` with the same descriptor, base and mask gives the stored
register back on every selected slice. -/
def Obligations.StoreThenLoadRoundTrip : Prop :=
  ∀ (a b : TReg) (base desc base' desc' : XReg) (s t u : State),
    Memory.wf s.mem = true → exec (.tlMstore a base desc) s = .next t →
    t.loadMask = t.storeMask → t.readX base' = t.readX base → t.readX32 desc' = t.readX32 desc →
    exec (.tlMload b desc' base') t = .next u →
    ∀ i k, i < (shapeOf (s.readX32 desc)).d0 → k < (shapeOf (s.readX32 desc)).sliceSize →
      selects s.storeMask i = true →
      Tensor.byte (u.readT b) (i * (shapeOf (s.readX32 desc)).sliceSize + k) =
        Tensor.byte (s.readT a) (i * (shapeOf (s.readX32 desc)).sliceSize + k)

/-- R157 (2): with the low `D0` mask bits set and `D0 <= 32`, `tl.mload` is a plain copy of `N` bytes from the base
and `tl.mstore` one of `N` bytes to the base, whatever the layout. -/
def Obligations.FullMaskMovesArePlainCopies : Prop :=
  (∀ (rd : TReg) (rs1 rs2 : XReg) (s t : State), exec (.tlMload rd rs1 rs2) s = .next t →
    (shapeOf (s.readX32 rs1)).d0 ≤ 32 →
    (∀ i, i < (shapeOf (s.readX32 rs1)).d0 → s.loadMask.getLsbD i = true) →
    ∀ n, n < (shapeOf (s.readX32 rs1)).count →
      Tensor.byte (t.readT rd) n =
        s.mem.read (((s.readX rs2).toNat + n) % 2 ^ s.cfg.xlen.bits)) ∧
  (∀ (rs1 : TReg) (rs2 rd : XReg) (s t : State), Memory.wf s.mem = true →
    exec (.tlMstore rs1 rs2 rd) s = .next t →
    (shapeOf (s.readX32 rd)).d0 ≤ 32 →
    (∀ i, i < (shapeOf (s.readX32 rd)).d0 → s.storeMask.getLsbD i = true) →
    (∀ n, n < (shapeOf (s.readX32 rd)).count →
      t.mem.read (((s.readX rs2).toNat + n) % 2 ^ s.cfg.xlen.bits) = Tensor.byte (s.readT rs1) n) ∧
    (∀ a, (∀ n, n < (shapeOf (s.readX32 rd)).count → a ≠ ((s.readX rs2).toNat + n) % 2 ^ s.cfg.xlen.bits) →
      t.mem.read a = s.mem.read a))

/-- What a TensorLoad instruction that completes does to the bytes its rule gives no value, to the draws and to the
record: a byte left unassigned is the old one under `TL_UNASSIGNED = unchanged` and a free draw under `any` (R10, R16,
D9, assumption log 10); an instruction that may leave bytes unassigned spends 1024 draws, so that each use draws anew
(R16, assumption log 8); `tl.mload` and `tl.mstore` record exactly one event per byte accessed, as one set (R67,
assumption log 30), and no other instruction records any. -/
def Obligations.FreeDrawsAndRecordedAccesses : Prop :=
  (∀ p ∈ transposes, ∀ (rd rs1 : TReg) (rs2 : XReg) (s t : State), exec (p.1 rd rs1 rs2) s = .next t →
    (∀ n, (shapeOf (s.readX32 rs2)).count ≤ n → n < 1024 → LeftUnassigned rd n s t) ∧
    t.draws = s.draws + 1024 ∧ t.events = s.events) ∧
  (∀ op ∈ concats, ∀ (rd rs1 rs2 : TReg) (s t : State), exec (op rd rs1 rs2) s = .next t →
    (s.cfg.concat = .literal → ∀ n, setBitsBelow s.mask1 32 + setBitsBelow s.mask2 32 ≤ n → n < 1024 →
      LeftUnassigned rd n s t) ∧
    t.draws = s.draws + 1024 ∧ t.events = s.events) ∧
  (∀ (rd rs1 : TReg) (imm : BitVec 12) (s t : State), exec (.tlAddi rd rs1 imm) s = .next t →
    t.draws = s.draws ∧ t.events = s.events) ∧
  (∀ (rd : TReg) (rs1 rs2 : XReg) (s t : State), exec (.tlMload rd rs1 rs2) s = .next t →
    let D := shapeOf (s.readX32 rs1)
    (∀ i k, i < D.d0 → k < D.d1 * D.d2 * D.d3 → (32 ≤ i ∨ s.loadMask.getLsbD i = false) →
      LeftUnassigned rd (i * (D.d1 * D.d2 * D.d3) + k) s t) ∧
    (∀ n, D.count ≤ n → n < 1024 → LeftUnassigned rd n s t) ∧
    t.draws = s.draws + 1024 ∧
    RecordedAs .read (fun c => SelectedAddress s.cfg D s.loadMask (s.readX rs2) c.1 ∧ c.2 = s.mem.read c.1) s t) ∧
  (∀ (rs1 : TReg) (rs2 rd : XReg) (s t : State), Memory.wf s.mem = true → exec (.tlMstore rs1 rs2 rd) s = .next t →
    t.draws = s.draws ∧
    RecordedAs .write (fun c => SelectedAddress s.cfg (shapeOf (s.readX32 rd)) s.storeMask (s.readX rs2) c.1 ∧
      c.2 = t.mem.read c.1) s t)

/-! ### The base subset (R171 to R173) -/

/-- R171: `lui` writes `sext(imm20 ++ 0x000)` of `XLEN` bits to `x[rd]`; to `x0` it writes nothing. -/
def Obligations.LuiLoadsUpperImmediate : Prop :=
  ∀ (rd : XReg) (imm20 : BitVec 20) (s : State),
    encode (.lui rd imm20) &&& 0x0000007F = 0x00000037 ∧
    ∃ t, exec (.lui rd imm20) s = .next t ∧
      (rd ≠ 0 → t.readX rd = s.cfg.xlen.wrap (BitVec.ofInt 64 ((imm20 ++ 0#12 : BitVec 32).toInt))) ∧
      (rd = 0 → t.x = s.x) ∧ OnlyInteger rd s t ∧ Advanced s t

/-- R172: `addi` writes `x[rs1] + sext(imm)` modulo `2^XLEN` to `x[rd]`; to `x0` it writes nothing. -/
def Obligations.AddiAddsModuloXlen : Prop :=
  ∀ (rd rs1 : XReg) (imm : BitVec 12) (s : State),
    encode (.addi rd rs1 imm) &&& 0x0000707F = 0x00000013 ∧
    ∃ t, exec (.addi rd rs1 imm) s = .next t ∧
      (rd ≠ 0 → ((t.readX rd).toNat : Int) =
        (((s.readX rs1).toNat : Int) + imm.toInt) % (2 ^ s.cfg.xlen.bits : Int)) ∧
      (rd = 0 → t.x = s.x) ∧ OnlyInteger rd s t ∧ Advanced s t

/-- R173: `bne` branches to `pc + sext(offset)` modulo `2^XLEN` when the registers differ and the target is a multiple
of 4, raises `InstructionAddressMisaligned` with the target when it is not, and goes on when they are equal;
it writes no register. -/
def Obligations.BneBranches : Prop :=
  ∀ (rs1 rs2 : XReg) (offset : BitVec 13) (s : State),
    let target := s.cfg.xlen.wrap (BitVec.ofInt 64 (s.pc.toInt + offset.toInt))
    encode (.bne rs1 rs2 offset) &&& 0x0000707F = 0x00001063 ∧
    (s.readX rs1 ≠ s.readX rs2 → target.toNat % 4 = 0 →
      ∃ t, exec (.bne rs1 rs2 offset) s = .next t ∧ t.pc = target ∧ OnlyInteger 0 s t ∧ t.x = s.x) ∧
    (s.readX rs1 ≠ s.readX rs2 → target.toNat % 4 ≠ 0 →
      exec (.bne rs1 rs2 offset) s = .fault (.instructionAddressMisaligned
        { code := 0, pc := s.readPc, value := target, final := s })) ∧
    (s.readX rs1 = s.readX rs2 →
      ∃ t, exec (.bne rs1 rs2 offset) s = .next t ∧ Advanced s t ∧ OnlyInteger 0 s t ∧ t.x = s.x)

/-! ### Zicsr (R180 to R185) -/

/-- R180: `csrrw`. On an implemented CSR `x[rd]` gets the old value zero-extended (nothing is read for `x0`), and the
CSR gets the low 32 bits of the old `x[rs1]`; `tl_xpose_status` ignores the write (R36): the outcome is that of its
pure read, or for `x0` of no access at all. An unimplemented CSR raises `IllegalInstruction` (R41), here and in the
five rules that follow. -/
def Obligations.CsrrwSwaps : Prop :=
  ∀ (rd : XReg) (csr : BitVec 12) (rs1 : XReg) (s : State),
    encode (.csrrw rd csr rs1) &&& 0x0000707F = 0x00001073 ∧
    (∀ c, Csr.ofAddress csr = some c → ∃ t, exec (.csrrw rd csr rs1) s = .next t ∧
      (rd ≠ 0 → t.readX rd = (s.csrValue c).setWidth 64) ∧
      (c ≠ .xposeStatus → t.csr c = (s.readX rs1).setWidth 32) ∧
      (rd = 0 → t.x = s.x ∧ (c = .xposeStatus → t = s.advancePc)) ∧
      (rd ≠ 0 → c = .xposeStatus → exec (.csrrs rd csr 0) s = .next t) ∧ OnlyCsr rd c s t ∧ Advanced s t) ∧
    (Csr.ofAddress csr = none →
      ∃ trap, exec (.csrrw rd csr rs1) s = .fault (.illegalInstruction trap) ∧
        IllegalTrap (encode (.csrrw rd csr rs1)) s trap)

/-- R181: `csrrs`. On an implemented CSR `x[rd]` gets the old value, the CSR the old value with the bits of `x[rs1]`
set, and no write at all happens for `rs1 = x0`. Where `rd` and `rs1` are one register, which value of it goes to
the CSR is `CsrrsCsrrcTakeTheSourceFirst`. -/
def Obligations.CsrrsSetsBits : Prop :=
  ∀ (rd : XReg) (csr : BitVec 12) (rs1 : XReg) (s : State),
    encode (.csrrs rd csr rs1) &&& 0x0000707F = 0x00002073 ∧
    (∀ c, Csr.ofAddress csr = some c → ∃ t, exec (.csrrs rd csr rs1) s = .next t ∧
      (rd ≠ 0 → t.readX rd = (s.csrValue c).setWidth 64) ∧ (rd = 0 → t.x = s.x) ∧
      (c ≠ .xposeStatus → rd ≠ rs1 ∨ rs1 = 0 →
        t.csr c = if rs1 = 0 then s.csr c else s.csr c ||| (s.readX rs1).setWidth 32) ∧
      OnlyCsr rd c s t ∧ Advanced s t) ∧
    (Csr.ofAddress csr = none →
      ∃ trap, exec (.csrrs rd csr rs1) s = .fault (.illegalInstruction trap) ∧
        IllegalTrap (encode (.csrrs rd csr rs1)) s trap)

/-- R182: `csrrc`. As `csrrs`, with the bits of `x[rs1]` cleared; one register as `rd` and `rs1` as there. -/
def Obligations.CsrrcClearsBits : Prop :=
  ∀ (rd : XReg) (csr : BitVec 12) (rs1 : XReg) (s : State),
    encode (.csrrc rd csr rs1) &&& 0x0000707F = 0x00003073 ∧
    (∀ c, Csr.ofAddress csr = some c → ∃ t, exec (.csrrc rd csr rs1) s = .next t ∧
      (rd ≠ 0 → t.readX rd = (s.csrValue c).setWidth 64) ∧ (rd = 0 → t.x = s.x) ∧
      (c ≠ .xposeStatus → rd ≠ rs1 ∨ rs1 = 0 →
        t.csr c = if rs1 = 0 then s.csr c else s.csr c &&& ~~~((s.readX rs1).setWidth 32)) ∧
      OnlyCsr rd c s t ∧ Advanced s t) ∧
    (Csr.ofAddress csr = none →
      ∃ trap, exec (.csrrc rd csr rs1) s = .fault (.illegalInstruction trap) ∧
        IllegalTrap (encode (.csrrc rd csr rs1)) s trap)

/-- R183: `csrrwi`. As `csrrw` with the zero-extended 5-bit immediate. -/
def Obligations.CsrrwiWritesImmediate : Prop :=
  ∀ (rd : XReg) (csr : BitVec 12) (uimm : BitVec 5) (s : State),
    encode (.csrrwi rd csr uimm) &&& 0x0000707F = 0x00005073 ∧
    (∀ c, Csr.ofAddress csr = some c → ∃ t, exec (.csrrwi rd csr uimm) s = .next t ∧
      (rd ≠ 0 → t.readX rd = (s.csrValue c).setWidth 64) ∧
      (c ≠ .xposeStatus → (t.csr c).toNat = uimm.toNat) ∧
      (rd = 0 → t.x = s.x ∧ (c = .xposeStatus → t = s.advancePc)) ∧
      (rd ≠ 0 → c = .xposeStatus → exec (.csrrs rd csr 0) s = .next t) ∧ OnlyCsr rd c s t ∧ Advanced s t) ∧
    (Csr.ofAddress csr = none →
      ∃ trap, exec (.csrrwi rd csr uimm) s = .fault (.illegalInstruction trap) ∧
        IllegalTrap (encode (.csrrwi rd csr uimm)) s trap)

/-- R184: `csrrsi`. As `csrrs` with the zero-extended immediate, no write for `uimm = 0`. -/
def Obligations.CsrrsiSetsBits : Prop :=
  ∀ (rd : XReg) (csr : BitVec 12) (uimm : BitVec 5) (s : State),
    encode (.csrrsi rd csr uimm) &&& 0x0000707F = 0x00006073 ∧
    (∀ c, Csr.ofAddress csr = some c → ∃ t, exec (.csrrsi rd csr uimm) s = .next t ∧
      (rd ≠ 0 → t.readX rd = (s.csrValue c).setWidth 64) ∧ (rd = 0 → t.x = s.x) ∧
      (c ≠ .xposeStatus → ∀ b, b < 32 →
        (t.csr c).getLsbD b = ((s.csr c).getLsbD b || uimm.getLsbD b)) ∧
      OnlyCsr rd c s t ∧ Advanced s t) ∧
    (Csr.ofAddress csr = none →
      ∃ trap, exec (.csrrsi rd csr uimm) s = .fault (.illegalInstruction trap) ∧
        IllegalTrap (encode (.csrrsi rd csr uimm)) s trap)

/-- R185: `csrrci`. As `csrrc` with the zero-extended immediate, no write for `uimm = 0`. -/
def Obligations.CsrrciClearsBits : Prop :=
  ∀ (rd : XReg) (csr : BitVec 12) (uimm : BitVec 5) (s : State),
    encode (.csrrci rd csr uimm) &&& 0x0000707F = 0x00007073 ∧
    (∀ c, Csr.ofAddress csr = some c → ∃ t, exec (.csrrci rd csr uimm) s = .next t ∧
      (rd ≠ 0 → t.readX rd = (s.csrValue c).setWidth 64) ∧ (rd = 0 → t.x = s.x) ∧
      (c ≠ .xposeStatus → ∀ b, b < 32 →
        (t.csr c).getLsbD b = ((s.csr c).getLsbD b && !uimm.getLsbD b)) ∧
      OnlyCsr rd c s t ∧ Advanced s t) ∧
    (Csr.ofAddress csr = none →
      ∃ trap, exec (.csrrci rd csr uimm) s = .fault (.illegalInstruction trap) ∧
        IllegalTrap (encode (.csrrci rd csr uimm)) s trap)

/-- R41: a Zicsr instruction that names any CSR address but the eight of R30 raises `IllegalInstruction` with its own
word, or 0, as value, and changes nothing. -/
def Obligations.UnimplementedCsrRaisesIllegalInstruction : Prop :=
  ∀ (rd : XReg) (csr : BitVec 12) (r : BitVec 5) (s : State),
    csr ∉ ([0x800, 0x801, 0x802, 0x803, 0x810, 0x811, 0x812, 0x813] : List (BitVec 12)) →
    ∀ i ∈ [Instr.csrrw rd csr r, .csrrs rd csr r, .csrrc rd csr r, .csrrwi rd csr r, .csrrsi rd csr r,
        .csrrci rd csr r],
      ∃ trap : Trap, exec i s = .fault (.illegalInstruction trap) ∧ IllegalTrap (encode i) s trap

/-- R36 (D11, assumption log 9): every software read of `tl_xpose_status` answers the free draw of its number and spends
the draw, so that the next read answers another one, whatever the form of the read and whatever it writes: its outcome
is that of the pure read. `csrrw` and `csrrwi` into `x0` read nothing. A plain CSR is read as it stands, and no draw
is spent. -/
def Obligations.StatusReadsAreFreeDraws : Prop :=
  (∀ (rd : XReg) (r : BitVec 5) (s : State),
    ∃ t, exec (.csrrs rd 0x803 0) s = .next t ∧
      (rd ≠ 0 → t.readX rd = (Config.freeWord s.draws).setWidth 64) ∧ t.draws = s.draws + 1 ∧
      (∀ i ∈ [Instr.csrrs rd 0x803 r, .csrrc rd 0x803 r, .csrrsi rd 0x803 r, .csrrci rd 0x803 r],
        exec i s = .next t) ∧
      (∀ i ∈ [Instr.csrrw rd 0x803 r, .csrrwi rd 0x803 r],
        exec i s = if rd = 0 then .next s.advancePc else .next t)) ∧
  (∀ (rd : XReg) (r : BitVec 5) (csr : BitVec 12) (c : Csr) (s : State),
    Csr.ofAddress csr = some c → c ≠ .xposeStatus →
    s.csrValue c = s.csr c ∧
    ∀ i ∈ [Instr.csrrw rd csr r, .csrrs rd csr r, .csrrc rd csr r, .csrrwi rd csr r, .csrrsi rd csr r,
        .csrrci rd csr r], ∃ t, exec i s = .next t ∧ t.draws = s.draws)

/-- The model's choice (assumption log 43, after D24): where `rd` and `rs1` of `csrrs` or `csrrc` are one register other
than `x0`, the CSR is updated with what the register held before the instruction, and the register then holds the
old CSR; the pseudocode of R181 writes the register first. -/
def Obligations.CsrrsCsrrcTakeTheSourceFirst : Prop :=
  ∀ (r : XReg) (csr : BitVec 12) (c : Csr) (s : State), r ≠ 0 → Csr.ofAddress csr = some c → c ≠ .xposeStatus →
    (∃ t, exec (.csrrs r csr r) s = .next t ∧ t.readX r = (s.csr c).setWidth 64 ∧
      t.csr c = s.csr c ||| (s.readX r).setWidth 32) ∧
    (∃ t, exec (.csrrc r csr r) s = .next t ∧ t.readX r = (s.csr c).setWidth 64 ∧
      t.csr c = s.csr c &&& ~~~((s.readX r).setWidth 32))
end

