-- ==== Sys2Proof/Laws/Encoding.lean ====
section
/-! SUPPORT. The fields of the encoding formats: extracting a field from an assembled word gives the field back
(30_encoding.md R71, R72, 44_base_support.md R170), and a word read back from its bytes is the word (R50). -/

namespace Sys2Proof

@[simp] theorem opcodeOf_encodeR (f7 : BitVec 7) (r2 r1 : BitVec 5) (f3 : BitVec 3) (rd : BitVec 5)
    (op : BitVec 7) : opcodeOf (encodeR f7 r2 r1 f3 rd op) = op := by
  apply BitVec.eq_of_getLsbD_eq
  intro i hi
  simp only [opcodeOf, encodeR, BitVec.getLsbD_extractLsb', BitVec.getLsbD_append, hi, decide_true, Bool.true_and]
  split_ifs <;> first | omega | (congr 1; omega)

@[simp] theorem rdOf_encodeR (f7 : BitVec 7) (r2 r1 : BitVec 5) (f3 : BitVec 3) (rd : BitVec 5)
    (op : BitVec 7) : rdOf (encodeR f7 r2 r1 f3 rd op) = rd := by
  apply BitVec.eq_of_getLsbD_eq
  intro i hi
  simp only [rdOf, encodeR, BitVec.getLsbD_extractLsb', BitVec.getLsbD_append, hi, decide_true, Bool.true_and]
  split_ifs <;> first | omega | (congr 1; omega)

@[simp] theorem funct3Of_encodeR (f7 : BitVec 7) (r2 r1 : BitVec 5) (f3 : BitVec 3) (rd : BitVec 5)
    (op : BitVec 7) : funct3Of (encodeR f7 r2 r1 f3 rd op) = f3 := by
  apply BitVec.eq_of_getLsbD_eq
  intro i hi
  simp only [funct3Of, encodeR, BitVec.getLsbD_extractLsb', BitVec.getLsbD_append, hi, decide_true, Bool.true_and]
  split_ifs <;> first | omega | (congr 1; omega)

@[simp] theorem rs1Of_encodeR (f7 : BitVec 7) (r2 r1 : BitVec 5) (f3 : BitVec 3) (rd : BitVec 5)
    (op : BitVec 7) : rs1Of (encodeR f7 r2 r1 f3 rd op) = r1 := by
  apply BitVec.eq_of_getLsbD_eq
  intro i hi
  simp only [rs1Of, encodeR, BitVec.getLsbD_extractLsb', BitVec.getLsbD_append, hi, decide_true, Bool.true_and]
  split_ifs <;> first | omega | (congr 1; omega)

@[simp] theorem rs2Of_encodeR (f7 : BitVec 7) (r2 r1 : BitVec 5) (f3 : BitVec 3) (rd : BitVec 5)
    (op : BitVec 7) : rs2Of (encodeR f7 r2 r1 f3 rd op) = r2 := by
  apply BitVec.eq_of_getLsbD_eq
  intro i hi
  simp only [rs2Of, encodeR, BitVec.getLsbD_extractLsb', BitVec.getLsbD_append, hi, decide_true, Bool.true_and]
  split_ifs <;> first | omega | (congr 1; omega)

@[simp] theorem funct7Of_encodeR (f7 : BitVec 7) (r2 r1 : BitVec 5) (f3 : BitVec 3) (rd : BitVec 5)
    (op : BitVec 7) : funct7Of (encodeR f7 r2 r1 f3 rd op) = f7 := by
  apply BitVec.eq_of_getLsbD_eq
  intro i hi
  simp only [funct7Of, encodeR, BitVec.getLsbD_extractLsb', BitVec.getLsbD_append, hi, decide_true, Bool.true_and]
  split_ifs <;> first | omega | (congr 1; omega)

@[simp] theorem opcodeOf_encodeI (imm : BitVec 12) (r1 : BitVec 5) (f3 : BitVec 3) (rd : BitVec 5)
    (op : BitVec 7) : opcodeOf (encodeI imm r1 f3 rd op) = op := by
  apply BitVec.eq_of_getLsbD_eq
  intro i hi
  simp only [opcodeOf, encodeI, BitVec.getLsbD_extractLsb', BitVec.getLsbD_append, hi, decide_true, Bool.true_and]
  split_ifs <;> first | omega | (congr 1; omega)

@[simp] theorem rdOf_encodeI (imm : BitVec 12) (r1 : BitVec 5) (f3 : BitVec 3) (rd : BitVec 5)
    (op : BitVec 7) : rdOf (encodeI imm r1 f3 rd op) = rd := by
  apply BitVec.eq_of_getLsbD_eq
  intro i hi
  simp only [rdOf, encodeI, BitVec.getLsbD_extractLsb', BitVec.getLsbD_append, hi, decide_true, Bool.true_and]
  split_ifs <;> first | omega | (congr 1; omega)

@[simp] theorem funct3Of_encodeI (imm : BitVec 12) (r1 : BitVec 5) (f3 : BitVec 3) (rd : BitVec 5)
    (op : BitVec 7) : funct3Of (encodeI imm r1 f3 rd op) = f3 := by
  apply BitVec.eq_of_getLsbD_eq
  intro i hi
  simp only [funct3Of, encodeI, BitVec.getLsbD_extractLsb', BitVec.getLsbD_append, hi, decide_true, Bool.true_and]
  split_ifs <;> first | omega | (congr 1; omega)

@[simp] theorem rs1Of_encodeI (imm : BitVec 12) (r1 : BitVec 5) (f3 : BitVec 3) (rd : BitVec 5)
    (op : BitVec 7) : rs1Of (encodeI imm r1 f3 rd op) = r1 := by
  apply BitVec.eq_of_getLsbD_eq
  intro i hi
  simp only [rs1Of, encodeI, BitVec.getLsbD_extractLsb', BitVec.getLsbD_append, hi, decide_true, Bool.true_and]
  split_ifs <;> first | omega | (congr 1; omega)

@[simp] theorem immIOf_encodeI (imm : BitVec 12) (r1 : BitVec 5) (f3 : BitVec 3) (rd : BitVec 5)
    (op : BitVec 7) : immIOf (encodeI imm r1 f3 rd op) = imm := by
  apply BitVec.eq_of_getLsbD_eq
  intro i hi
  simp only [immIOf, encodeI, BitVec.getLsbD_extractLsb', BitVec.getLsbD_append, hi, decide_true, Bool.true_and]
  split_ifs <;> first | omega | (congr 1; omega)

@[simp] theorem opcodeOf_encodeU (imm : BitVec 20) (rd : BitVec 5) (op : BitVec 7) : opcodeOf (encodeU imm rd op) = op := by
  apply BitVec.eq_of_getLsbD_eq
  intro i hi
  simp only [opcodeOf, encodeU, BitVec.getLsbD_extractLsb', BitVec.getLsbD_append, hi, decide_true, Bool.true_and]
  split_ifs <;> first | omega | (congr 1; omega)

@[simp] theorem rdOf_encodeU (imm : BitVec 20) (rd : BitVec 5) (op : BitVec 7) : rdOf (encodeU imm rd op) = rd := by
  apply BitVec.eq_of_getLsbD_eq
  intro i hi
  simp only [rdOf, encodeU, BitVec.getLsbD_extractLsb', BitVec.getLsbD_append, hi, decide_true, Bool.true_and]
  split_ifs <;> first | omega | (congr 1; omega)

@[simp] theorem immUOf_encodeU (imm : BitVec 20) (rd : BitVec 5) (op : BitVec 7) : immUOf (encodeU imm rd op) = imm := by
  apply BitVec.eq_of_getLsbD_eq
  intro i hi
  simp only [immUOf, encodeU, BitVec.getLsbD_extractLsb', BitVec.getLsbD_append, hi, decide_true, Bool.true_and]
  split_ifs <;> first | omega | (congr 1; omega)

@[simp] theorem opcodeOf_encodeB (imm : BitVec 13) (r2 r1 : BitVec 5) (f3 : BitVec 3) (op : BitVec 7) : opcodeOf (encodeB imm r2 r1 f3 op) = op := by
  apply BitVec.eq_of_getLsbD_eq
  intro i hi
  simp only [opcodeOf, encodeB, BitVec.getLsbD_extractLsb', BitVec.getLsbD_append, hi, decide_true, Bool.true_and]
  split_ifs <;> first | omega | (congr 1; omega)

@[simp] theorem funct3Of_encodeB (imm : BitVec 13) (r2 r1 : BitVec 5) (f3 : BitVec 3) (op : BitVec 7) : funct3Of (encodeB imm r2 r1 f3 op) = f3 := by
  apply BitVec.eq_of_getLsbD_eq
  intro i hi
  simp only [funct3Of, encodeB, BitVec.getLsbD_extractLsb', BitVec.getLsbD_append, hi, decide_true, Bool.true_and]
  split_ifs <;> first | omega | (congr 1; omega)

@[simp] theorem rs1Of_encodeB (imm : BitVec 13) (r2 r1 : BitVec 5) (f3 : BitVec 3) (op : BitVec 7) : rs1Of (encodeB imm r2 r1 f3 op) = r1 := by
  apply BitVec.eq_of_getLsbD_eq
  intro i hi
  simp only [rs1Of, encodeB, BitVec.getLsbD_extractLsb', BitVec.getLsbD_append, hi, decide_true, Bool.true_and]
  split_ifs <;> first | omega | (congr 1; omega)

@[simp] theorem rs2Of_encodeB (imm : BitVec 13) (r2 r1 : BitVec 5) (f3 : BitVec 3) (op : BitVec 7) : rs2Of (encodeB imm r2 r1 f3 op) = r2 := by
  apply BitVec.eq_of_getLsbD_eq
  intro i hi
  simp only [rs2Of, encodeB, BitVec.getLsbD_extractLsb', BitVec.getLsbD_append, hi, decide_true, Bool.true_and]
  split_ifs <;> first | omega | (congr 1; omega)

/-- An even offset comes back from a B-format word (R170). -/
theorem immBOf_encodeB (imm : BitVec 13) (r2 r1 : BitVec 5) (f3 : BitVec 3) (op : BitVec 7)
    (h : imm.getLsbD 0 = false) : immBOf (encodeB imm r2 r1 f3 op) = imm := by
  apply BitVec.eq_of_getLsbD_eq
  intro i hi
  simp only [immBOf, encodeB, BitVec.getLsbD_extractLsb', BitVec.getLsbD_append]
  rcases Nat.eq_zero_or_pos i with rfl | h0
  · simpa using h.symm
  interval_cases i <;> simp

/-! ### A word is the assembly of its fields -/

theorem eq_encodeR (w : Word32) :
    encodeR (funct7Of w) (rs2Of w) (rs1Of w) (funct3Of w) (rdOf w) (opcodeOf w) = w := by
  apply BitVec.eq_of_getLsbD_eq
  intro i hi
  simp only [encodeR, funct7Of, rs2Of, rs1Of, rdOf, funct3Of, opcodeOf, BitVec.getLsbD_append,
    BitVec.getLsbD_extractLsb']
  interval_cases i <;> simp

theorem eq_encodeI (w : Word32) :
    encodeI (immIOf w) (rs1Of w) (funct3Of w) (rdOf w) (opcodeOf w) = w := by
  apply BitVec.eq_of_getLsbD_eq
  intro i hi
  simp only [encodeI, immIOf, rs1Of, rdOf, funct3Of, opcodeOf, BitVec.getLsbD_append, BitVec.getLsbD_extractLsb']
  interval_cases i <;> simp

theorem eq_encodeU (w : Word32) : encodeU (immUOf w) (rdOf w) (opcodeOf w) = w := by
  apply BitVec.eq_of_getLsbD_eq
  intro i hi
  simp only [encodeU, immUOf, rdOf, opcodeOf, BitVec.getLsbD_append, BitVec.getLsbD_extractLsb']
  interval_cases i <;> simp

theorem eq_encodeB (w : Word32) :
    encodeB (immBOf w) (rs2Of w) (rs1Of w) (funct3Of w) (opcodeOf w) = w := by
  apply BitVec.eq_of_getLsbD_eq
  intro i hi
  simp only [encodeB, immBOf, rs2Of, rs1Of, funct3Of, opcodeOf, BitVec.getLsbD_append, BitVec.getLsbD_extractLsb']
  interval_cases i <;> simp

/-! ### The fixed fields of a word under a row's mask (R75) -/

/-- The R rows' mask keeps `funct7`, `funct3` and the opcode. -/
theorem encodeR_mask (f7 : BitVec 7) (r2 r1 : BitVec 5) (f3 : BitVec 3) (rd : BitVec 5) (op : BitVec 7) :
    encodeR f7 r2 r1 f3 rd op &&& 0xFE00707F = encodeR f7 0 0 f3 0 op := by
  apply BitVec.eq_of_getLsbD_eq
  intro i hi
  simp only [encodeR, BitVec.getLsbD_and, BitVec.getLsbD_append]
  interval_cases i <;> simp

/-- The I rows' mask keeps `funct3` and the opcode. -/
theorem encodeI_mask (imm : BitVec 12) (r1 : BitVec 5) (f3 : BitVec 3) (rd : BitVec 5) (op : BitVec 7) :
    encodeI imm r1 f3 rd op &&& 0x0000707F = encodeI 0 0 f3 0 op := by
  apply BitVec.eq_of_getLsbD_eq
  intro i hi
  simp only [encodeI, BitVec.getLsbD_and, BitVec.getLsbD_append]
  interval_cases i <;> simp

/-- `lui`'s mask keeps the opcode. -/
theorem encodeU_mask (imm : BitVec 20) (rd : BitVec 5) (op : BitVec 7) :
    encodeU imm rd op &&& 0x0000007F = encodeU 0 0 op := by
  apply BitVec.eq_of_getLsbD_eq
  intro i hi
  simp only [encodeU, BitVec.getLsbD_and, BitVec.getLsbD_append]
  interval_cases i <;> simp

/-- `bne`'s mask keeps `funct3` and the opcode. -/
theorem encodeB_mask (imm : BitVec 13) (r2 r1 : BitVec 5) (f3 : BitVec 3) (op : BitVec 7) :
    encodeB imm r2 r1 f3 op &&& 0x0000707F = encodeB 0 0 0 f3 op := by
  apply BitVec.eq_of_getLsbD_eq
  intro i hi
  simp only [encodeB, BitVec.getLsbD_and, BitVec.getLsbD_append]
  interval_cases i <;> simp

/-- A word matches an R row exactly when its three fixed fields are the row's. -/
theorem matchesR_iff (w : Word32) (f7 : BitVec 7) (f3 : BitVec 3) (op : BitVec 7) :
    w &&& 0xFE00707F = encodeR f7 0 0 f3 0 op ↔ funct7Of w = f7 ∧ funct3Of w = f3 ∧ opcodeOf w = op := by
  rw [← eq_encodeR w, encodeR_mask]
  constructor
  · intro h
    have h7 := congrArg funct7Of h
    have h3 := congrArg funct3Of h
    have ho := congrArg opcodeOf h
    simp only [funct7Of_encodeR, funct3Of_encodeR, opcodeOf_encodeR] at h7 h3 ho ⊢
    exact ⟨h7, h3, ho⟩
  · simp only [funct7Of_encodeR, funct3Of_encodeR, opcodeOf_encodeR]
    rintro ⟨rfl, rfl, rfl⟩; rfl

/-- A word matches an I or B row exactly when its two fixed fields are the row's. -/
theorem matchesI_iff (w : Word32) (f3 : BitVec 3) (op : BitVec 7) :
    w &&& 0x0000707F = encodeI 0 0 f3 0 op ↔ funct3Of w = f3 ∧ opcodeOf w = op := by
  rw [← eq_encodeI w, encodeI_mask]
  constructor
  · intro h
    have h3 := congrArg funct3Of h
    have ho := congrArg opcodeOf h
    simp only [funct3Of_encodeI, opcodeOf_encodeI] at h3 ho ⊢
    exact ⟨h3, ho⟩
  · simp only [funct3Of_encodeI, opcodeOf_encodeI]
    rintro ⟨rfl, rfl⟩; rfl

/-- A word matches the U row exactly when its opcode is the row's. -/
theorem matchesU_iff (w : Word32) (op : BitVec 7) :
    w &&& 0x0000007F = encodeU 0 0 op ↔ opcodeOf w = op := by
  rw [← eq_encodeU w, encodeU_mask]
  constructor
  · intro h
    simpa only [opcodeOf_encodeU] using congrArg opcodeOf h
  · simp only [opcodeOf_encodeU]
    rintro rfl; rfl

/-! ### Bytes -/

/-- A word read back from its four bytes is the word (R50). -/
@[simp] theorem wordOfBytes_of_word (w : Word32) :
    wordOfBytes (w.extractLsb' 0 8) (w.extractLsb' 8 8) (w.extractLsb' 16 8) (w.extractLsb' 24 8) = w := by
  apply BitVec.eq_of_getLsbD_eq
  intro i hi
  simp only [wordOfBytes, BitVec.getLsbD_append, BitVec.getLsbD_extractLsb']
  interval_cases i <;> simp

/-- Decoding the bytes of a word is decoding the word. -/
@[simp] theorem decode_bytesOfWord (w : Word32) : decode (bytesOfWord w) = decodeWord w := by
  simp [decode, bytesOfWord]

end Sys2Proof
end

