-- ==== Sys2Proof/Laws/State.lean ====
section
/-! SUPPORT. What each update of the state does to each field, so that no proof unfolds a record update. -/

namespace Sys2Proof.Machine

@[simp] theorem setPc_cfg (s : State) (v : Word) :
    (s.setPc v).cfg = s.cfg := rfl

@[simp] theorem setPc_x (s : State) (v : Word) :
    (s.setPc v).x = s.x := rfl

@[simp] theorem setPc_t (s : State) (v : Word) :
    (s.setPc v).t = s.t := rfl

@[simp] theorem setPc_tensorShape (s : State) (v : Word) :
    (s.setPc v).tensorShape = s.tensorShape := rfl

@[simp] theorem setPc_transposePerm (s : State) (v : Word) :
    (s.setPc v).transposePerm = s.transposePerm := rfl

@[simp] theorem setPc_xposeConfig (s : State) (v : Word) :
    (s.setPc v).xposeConfig = s.xposeConfig := rfl

@[simp] theorem setPc_xposeStatus (s : State) (v : Word) :
    (s.setPc v).xposeStatus = s.xposeStatus := rfl

@[simp] theorem setPc_mask1 (s : State) (v : Word) :
    (s.setPc v).mask1 = s.mask1 := rfl

@[simp] theorem setPc_mask2 (s : State) (v : Word) :
    (s.setPc v).mask2 = s.mask2 := rfl

@[simp] theorem setPc_loadMask (s : State) (v : Word) :
    (s.setPc v).loadMask = s.loadMask := rfl

@[simp] theorem setPc_storeMask (s : State) (v : Word) :
    (s.setPc v).storeMask = s.storeMask := rfl

@[simp] theorem setPc_mem (s : State) (v : Word) :
    (s.setPc v).mem = s.mem := rfl

@[simp] theorem setPc_events (s : State) (v : Word) :
    (s.setPc v).events = s.events := rfl

@[simp] theorem setPc_draws (s : State) (v : Word) :
    (s.setPc v).draws = s.draws := rfl

@[simp] theorem setPc_pc (s : State) (v : Word) :
    (s.setPc v).pc = s.cfg.xlen.wrap v := rfl

@[simp] theorem advancePc_cfg (s : State) :
    s.advancePc.cfg = s.cfg := rfl

@[simp] theorem advancePc_x (s : State) :
    s.advancePc.x = s.x := rfl

@[simp] theorem advancePc_t (s : State) :
    s.advancePc.t = s.t := rfl

@[simp] theorem advancePc_tensorShape (s : State) :
    s.advancePc.tensorShape = s.tensorShape := rfl

@[simp] theorem advancePc_transposePerm (s : State) :
    s.advancePc.transposePerm = s.transposePerm := rfl

@[simp] theorem advancePc_xposeConfig (s : State) :
    s.advancePc.xposeConfig = s.xposeConfig := rfl

@[simp] theorem advancePc_xposeStatus (s : State) :
    s.advancePc.xposeStatus = s.xposeStatus := rfl

@[simp] theorem advancePc_mask1 (s : State) :
    s.advancePc.mask1 = s.mask1 := rfl

@[simp] theorem advancePc_mask2 (s : State) :
    s.advancePc.mask2 = s.mask2 := rfl

@[simp] theorem advancePc_loadMask (s : State) :
    s.advancePc.loadMask = s.loadMask := rfl

@[simp] theorem advancePc_storeMask (s : State) :
    s.advancePc.storeMask = s.storeMask := rfl

@[simp] theorem advancePc_mem (s : State) :
    s.advancePc.mem = s.mem := rfl

@[simp] theorem advancePc_events (s : State) :
    s.advancePc.events = s.events := rfl

@[simp] theorem advancePc_draws (s : State) :
    s.advancePc.draws = s.draws := rfl

@[simp] theorem advancePc_pc (s : State) :
    s.advancePc.pc = s.cfg.xlen.wrap (s.pc + 4) := rfl

@[simp] theorem writeX_cfg (s : State) (r : XReg) (v : Word) :
    (s.writeX r v).cfg = s.cfg := by
  unfold State.writeX; split <;> rfl

@[simp] theorem writeX_pc (s : State) (r : XReg) (v : Word) :
    (s.writeX r v).pc = s.pc := by
  unfold State.writeX; split <;> rfl

@[simp] theorem writeX_t (s : State) (r : XReg) (v : Word) :
    (s.writeX r v).t = s.t := by
  unfold State.writeX; split <;> rfl

@[simp] theorem writeX_tensorShape (s : State) (r : XReg) (v : Word) :
    (s.writeX r v).tensorShape = s.tensorShape := by
  unfold State.writeX; split <;> rfl

@[simp] theorem writeX_transposePerm (s : State) (r : XReg) (v : Word) :
    (s.writeX r v).transposePerm = s.transposePerm := by
  unfold State.writeX; split <;> rfl

@[simp] theorem writeX_xposeConfig (s : State) (r : XReg) (v : Word) :
    (s.writeX r v).xposeConfig = s.xposeConfig := by
  unfold State.writeX; split <;> rfl

@[simp] theorem writeX_xposeStatus (s : State) (r : XReg) (v : Word) :
    (s.writeX r v).xposeStatus = s.xposeStatus := by
  unfold State.writeX; split <;> rfl

@[simp] theorem writeX_mask1 (s : State) (r : XReg) (v : Word) :
    (s.writeX r v).mask1 = s.mask1 := by
  unfold State.writeX; split <;> rfl

@[simp] theorem writeX_mask2 (s : State) (r : XReg) (v : Word) :
    (s.writeX r v).mask2 = s.mask2 := by
  unfold State.writeX; split <;> rfl

@[simp] theorem writeX_loadMask (s : State) (r : XReg) (v : Word) :
    (s.writeX r v).loadMask = s.loadMask := by
  unfold State.writeX; split <;> rfl

@[simp] theorem writeX_storeMask (s : State) (r : XReg) (v : Word) :
    (s.writeX r v).storeMask = s.storeMask := by
  unfold State.writeX; split <;> rfl

@[simp] theorem writeX_mem (s : State) (r : XReg) (v : Word) :
    (s.writeX r v).mem = s.mem := by
  unfold State.writeX; split <;> rfl

@[simp] theorem writeX_events (s : State) (r : XReg) (v : Word) :
    (s.writeX r v).events = s.events := by
  unfold State.writeX; split <;> rfl

@[simp] theorem writeX_draws (s : State) (r : XReg) (v : Word) :
    (s.writeX r v).draws = s.draws := by
  unfold State.writeX; split <;> rfl

@[simp] theorem writeX_zero (s : State) (v : Word) :
    s.writeX 0#5 v = s := rfl

@[simp] theorem writeT_cfg (s : State) (r : TReg) (A : Tensor) :
    (s.writeT r A).cfg = s.cfg := rfl

@[simp] theorem writeT_x (s : State) (r : TReg) (A : Tensor) :
    (s.writeT r A).x = s.x := rfl

@[simp] theorem writeT_pc (s : State) (r : TReg) (A : Tensor) :
    (s.writeT r A).pc = s.pc := rfl

@[simp] theorem writeT_tensorShape (s : State) (r : TReg) (A : Tensor) :
    (s.writeT r A).tensorShape = s.tensorShape := rfl

@[simp] theorem writeT_transposePerm (s : State) (r : TReg) (A : Tensor) :
    (s.writeT r A).transposePerm = s.transposePerm := rfl

@[simp] theorem writeT_xposeConfig (s : State) (r : TReg) (A : Tensor) :
    (s.writeT r A).xposeConfig = s.xposeConfig := rfl

@[simp] theorem writeT_xposeStatus (s : State) (r : TReg) (A : Tensor) :
    (s.writeT r A).xposeStatus = s.xposeStatus := rfl

@[simp] theorem writeT_mask1 (s : State) (r : TReg) (A : Tensor) :
    (s.writeT r A).mask1 = s.mask1 := rfl

@[simp] theorem writeT_mask2 (s : State) (r : TReg) (A : Tensor) :
    (s.writeT r A).mask2 = s.mask2 := rfl

@[simp] theorem writeT_loadMask (s : State) (r : TReg) (A : Tensor) :
    (s.writeT r A).loadMask = s.loadMask := rfl

@[simp] theorem writeT_storeMask (s : State) (r : TReg) (A : Tensor) :
    (s.writeT r A).storeMask = s.storeMask := rfl

@[simp] theorem writeT_mem (s : State) (r : TReg) (A : Tensor) :
    (s.writeT r A).mem = s.mem := rfl

@[simp] theorem writeT_events (s : State) (r : TReg) (A : Tensor) :
    (s.writeT r A).events = s.events := rfl

@[simp] theorem writeT_draws (s : State) (r : TReg) (A : Tensor) :
    (s.writeT r A).draws = s.draws := rfl

@[simp] theorem drew_cfg (s : State) (n : Nat) :
    (s.drew n).cfg = s.cfg := rfl

@[simp] theorem drew_x (s : State) (n : Nat) :
    (s.drew n).x = s.x := rfl

@[simp] theorem drew_pc (s : State) (n : Nat) :
    (s.drew n).pc = s.pc := rfl

@[simp] theorem drew_t (s : State) (n : Nat) :
    (s.drew n).t = s.t := rfl

@[simp] theorem drew_tensorShape (s : State) (n : Nat) :
    (s.drew n).tensorShape = s.tensorShape := rfl

@[simp] theorem drew_transposePerm (s : State) (n : Nat) :
    (s.drew n).transposePerm = s.transposePerm := rfl

@[simp] theorem drew_xposeConfig (s : State) (n : Nat) :
    (s.drew n).xposeConfig = s.xposeConfig := rfl

@[simp] theorem drew_xposeStatus (s : State) (n : Nat) :
    (s.drew n).xposeStatus = s.xposeStatus := rfl

@[simp] theorem drew_mask1 (s : State) (n : Nat) :
    (s.drew n).mask1 = s.mask1 := rfl

@[simp] theorem drew_mask2 (s : State) (n : Nat) :
    (s.drew n).mask2 = s.mask2 := rfl

@[simp] theorem drew_loadMask (s : State) (n : Nat) :
    (s.drew n).loadMask = s.loadMask := rfl

@[simp] theorem drew_storeMask (s : State) (n : Nat) :
    (s.drew n).storeMask = s.storeMask := rfl

@[simp] theorem drew_mem (s : State) (n : Nat) :
    (s.drew n).mem = s.mem := rfl

@[simp] theorem drew_events (s : State) (n : Nat) :
    (s.drew n).events = s.events := rfl

@[simp] theorem drew_draws (s : State) (n : Nat) :
    (s.drew n).draws = s.draws + n := rfl

@[simp] theorem record_cfg (s : State) (k : AccessKind) (cells : List Host.Cell) :
    (s.record k cells).cfg = s.cfg := rfl

@[simp] theorem record_x (s : State) (k : AccessKind) (cells : List Host.Cell) :
    (s.record k cells).x = s.x := rfl

@[simp] theorem record_pc (s : State) (k : AccessKind) (cells : List Host.Cell) :
    (s.record k cells).pc = s.pc := rfl

@[simp] theorem record_t (s : State) (k : AccessKind) (cells : List Host.Cell) :
    (s.record k cells).t = s.t := rfl

@[simp] theorem record_tensorShape (s : State) (k : AccessKind) (cells : List Host.Cell) :
    (s.record k cells).tensorShape = s.tensorShape := rfl

@[simp] theorem record_transposePerm (s : State) (k : AccessKind) (cells : List Host.Cell) :
    (s.record k cells).transposePerm = s.transposePerm := rfl

@[simp] theorem record_xposeConfig (s : State) (k : AccessKind) (cells : List Host.Cell) :
    (s.record k cells).xposeConfig = s.xposeConfig := rfl

@[simp] theorem record_xposeStatus (s : State) (k : AccessKind) (cells : List Host.Cell) :
    (s.record k cells).xposeStatus = s.xposeStatus := rfl

@[simp] theorem record_mask1 (s : State) (k : AccessKind) (cells : List Host.Cell) :
    (s.record k cells).mask1 = s.mask1 := rfl

@[simp] theorem record_mask2 (s : State) (k : AccessKind) (cells : List Host.Cell) :
    (s.record k cells).mask2 = s.mask2 := rfl

@[simp] theorem record_loadMask (s : State) (k : AccessKind) (cells : List Host.Cell) :
    (s.record k cells).loadMask = s.loadMask := rfl

@[simp] theorem record_storeMask (s : State) (k : AccessKind) (cells : List Host.Cell) :
    (s.record k cells).storeMask = s.storeMask := rfl

@[simp] theorem record_mem (s : State) (k : AccessKind) (cells : List Host.Cell) :
    (s.record k cells).mem = s.mem := rfl

@[simp] theorem record_draws (s : State) (k : AccessKind) (cells : List Host.Cell) :
    (s.record k cells).draws = s.draws := rfl

@[simp] theorem record_events (s : State) (k : AccessKind) (cells : List Host.Cell) :
    (s.record k cells).events = { pc := s.readPc, kind := k, cells := cellSet cells } :: s.events := rfl

@[simp] theorem writeCsr_cfg (s : State) (c : Csr) (v : Word32) :
    (s.writeCsr c v).cfg = s.cfg := by
  cases c <;> rfl

@[simp] theorem writeCsr_x (s : State) (c : Csr) (v : Word32) :
    (s.writeCsr c v).x = s.x := by
  cases c <;> rfl

@[simp] theorem writeCsr_pc (s : State) (c : Csr) (v : Word32) :
    (s.writeCsr c v).pc = s.pc := by
  cases c <;> rfl

@[simp] theorem writeCsr_t (s : State) (c : Csr) (v : Word32) :
    (s.writeCsr c v).t = s.t := by
  cases c <;> rfl

@[simp] theorem writeCsr_mem (s : State) (c : Csr) (v : Word32) :
    (s.writeCsr c v).mem = s.mem := by
  cases c <;> rfl

@[simp] theorem writeCsr_events (s : State) (c : Csr) (v : Word32) :
    (s.writeCsr c v).events = s.events := by
  cases c <;> rfl

@[simp] theorem writeCsr_draws (s : State) (c : Csr) (v : Word32) :
    (s.writeCsr c v).draws = s.draws := by
  cases c <;> rfl

@[simp] theorem writeCsr_xposeStatus (s : State) (c : Csr) (v : Word32) :
    (s.writeCsr c v).xposeStatus = s.xposeStatus := by
  cases c <;> rfl

@[simp] theorem afterCsrRead_cfg (s : State) (c : Csr) :
    (s.afterCsrRead c).cfg = s.cfg := by
  cases c <;> rfl

@[simp] theorem afterCsrRead_x (s : State) (c : Csr) :
    (s.afterCsrRead c).x = s.x := by
  cases c <;> rfl

@[simp] theorem afterCsrRead_pc (s : State) (c : Csr) :
    (s.afterCsrRead c).pc = s.pc := by
  cases c <;> rfl

@[simp] theorem afterCsrRead_t (s : State) (c : Csr) :
    (s.afterCsrRead c).t = s.t := by
  cases c <;> rfl

@[simp] theorem afterCsrRead_tensorShape (s : State) (c : Csr) :
    (s.afterCsrRead c).tensorShape = s.tensorShape := by
  cases c <;> rfl

@[simp] theorem afterCsrRead_transposePerm (s : State) (c : Csr) :
    (s.afterCsrRead c).transposePerm = s.transposePerm := by
  cases c <;> rfl

@[simp] theorem afterCsrRead_xposeConfig (s : State) (c : Csr) :
    (s.afterCsrRead c).xposeConfig = s.xposeConfig := by
  cases c <;> rfl

@[simp] theorem afterCsrRead_mask1 (s : State) (c : Csr) :
    (s.afterCsrRead c).mask1 = s.mask1 := by
  cases c <;> rfl

@[simp] theorem afterCsrRead_mask2 (s : State) (c : Csr) :
    (s.afterCsrRead c).mask2 = s.mask2 := by
  cases c <;> rfl

@[simp] theorem afterCsrRead_loadMask (s : State) (c : Csr) :
    (s.afterCsrRead c).loadMask = s.loadMask := by
  cases c <;> rfl

@[simp] theorem afterCsrRead_storeMask (s : State) (c : Csr) :
    (s.afterCsrRead c).storeMask = s.storeMask := by
  cases c <;> rfl

@[simp] theorem afterCsrRead_mem (s : State) (c : Csr) :
    (s.afterCsrRead c).mem = s.mem := by
  cases c <;> rfl

@[simp] theorem afterCsrRead_events (s : State) (c : Csr) :
    (s.afterCsrRead c).events = s.events := by
  cases c <;> rfl

/-! ### Derived readings -/

@[simp] theorem setPc_csr (s : State) (v : Word) (c : Csr) : (s.setPc v).csr c = s.csr c := by cases c <;> rfl
@[simp] theorem advancePc_csr (s : State) (c : Csr) : s.advancePc.csr c = s.csr c := by cases c <;> rfl
@[simp] theorem writeX_csr (s : State) (r : XReg) (v : Word) (c : Csr) :
    (s.writeX r v).csr c = s.csr c := by cases c <;> simp [State.csr]
@[simp] theorem writeT_csr (s : State) (r : TReg) (A : Tensor) (c : Csr) :
    (s.writeT r A).csr c = s.csr c := by cases c <;> rfl
@[simp] theorem drew_csr (s : State) (n : Nat) (c : Csr) : (s.drew n).csr c = s.csr c := by cases c <;> rfl
@[simp] theorem record_csr (s : State) (k : AccessKind) (cells : List Host.Cell) (c : Csr) :
    (s.record k cells).csr c = s.csr c := by cases c <;> rfl

theorem writeCsr_csr_same (s : State) (c : Csr) (v : Word32) (h : c ≠ .xposeStatus) :
    (s.writeCsr c v).csr c = v := by cases c <;> first | rfl | exact absurd rfl h
@[simp] theorem writeCsr_csr_other (s : State) (c d : Csr) (v : Word32) (h : d ≠ c) :
    (s.writeCsr c v).csr d = s.csr d := by cases c <;> cases d <;> first | rfl | exact absurd rfl h
@[simp] theorem afterCsrRead_csr_other (s : State) (c d : Csr) (h : d ≠ c) :
    (s.afterCsrRead c).csr d = s.csr d := by cases c <;> cases d <;> first | rfl | exact absurd rfl h
theorem afterCsrRead_plain (s : State) (c : Csr) (h : c ≠ .xposeStatus) : s.afterCsrRead c = s := by
  cases c <;> first | rfl | exact absurd rfl h
theorem csrValue_plain (s : State) (c : Csr) (h : c ≠ .xposeStatus) : s.csrValue c = s.csr c := by
  cases c <;> first | rfl | exact absurd rfl h

end Sys2Proof.Machine
end

