-- ==== Sys2Proof/Laws/Registers.lean ====
section
/-! SUPPORT. Reading and writing the integer and tensor registers, the bytes of a tensor, and `XLEN` bits. -/

namespace Sys2Proof.Machine

/-! ### `XLEN` bits -/

theorem wrap_toNat (x : Xlen) (w : Word) : (x.wrap w).toNat = w.toNat % 2 ^ x.bits := by
  cases x
  · simp only [Xlen.wrap, Xlen.bits, BitVec.toNat_setWidth]; omega
  · simpa [Xlen.wrap, Xlen.bits] using (Nat.mod_eq_of_lt w.isLt).symm

@[simp] theorem wrap_wrap (x : Xlen) (w : Word) : x.wrap (x.wrap w) = x.wrap w := by
  apply BitVec.eq_of_toNat_eq; simp [wrap_toNat]

theorem wrap_toNat_lt (x : Xlen) (w : Word) : (x.wrap w).toNat < 2 ^ x.bits := by
  rw [wrap_toNat]; exact Nat.mod_lt _ (by positivity)

@[simp] theorem wrap_zero (x : Xlen) : x.wrap 0#64 = 0#64 := by cases x <;> rfl

theorem wrap_mod_four (x : Xlen) (w : Word) : (x.wrap w).toNat % 4 = w.toNat % 4 := by
  rw [wrap_toNat]; cases x <;> simp only [Xlen.bits] <;> omega

theorem addr_lt (x : Xlen) (a : Nat) : x.addr a < 2 ^ x.bits := Nat.mod_lt _ (by positivity)

/-! ### Integer registers -/

@[simp] theorem readX_zero (s : State) : s.readX 0#5 = 0#64 := rfl

theorem writeX_of_ne (s : State) (r : XReg) (v : Word) (h : r ≠ 0) :
    s.writeX r v = { s with x := s.x.set r.toNat (s.cfg.xlen.wrap v) r.isLt } := if_neg h

theorem readX_of_ne (s : State) (r : XReg) (h : r ≠ 0) :
    s.readX r = s.cfg.xlen.wrap (s.x[r.toNat]'r.isLt) := if_neg h

theorem readX_writeX_same (s : State) (r : XReg) (v : Word) (h : r ≠ 0) :
    (s.writeX r v).readX r = s.cfg.xlen.wrap v := by
  rw [readX_of_ne _ r h, writeX_of_ne s r v h]; simp

theorem readX_writeX_other (s : State) (r q : XReg) (v : Word) (h : q ≠ r) :
    (s.writeX r v).readX q = s.readX q := by
  by_cases hr : r = 0
  · subst hr; rfl
  by_cases hq : q = 0
  · subst hq; rfl
  have hn : r.toNat ≠ q.toNat := fun e => h (BitVec.eq_of_toNat_eq e.symm)
  rw [readX_of_ne _ q hq, readX_of_ne _ q hq, writeX_of_ne s r v hr]; simp [hn]

/-- Reading an integer register looks at the parameters and the register file alone. -/
theorem readX_congr {s t : State} (hc : t.cfg = s.cfg) (hx : t.x = s.x) (r : XReg) : t.readX r = s.readX r := by
  simp [State.readX, hc, hx]

@[simp] theorem setPc_readX (s : State) (v : Word) (r : XReg) : (s.setPc v).readX r = s.readX r := rfl
@[simp] theorem advancePc_readX (s : State) (r : XReg) : s.advancePc.readX r = s.readX r := rfl
@[simp] theorem writeT_readX (s : State) (q : TReg) (A : Tensor) (r : XReg) :
    (s.writeT q A).readX r = s.readX r := rfl
@[simp] theorem drew_readX (s : State) (n : Nat) (r : XReg) : (s.drew n).readX r = s.readX r := rfl
@[simp] theorem record_readX (s : State) (k : AccessKind) (cells : List Host.Cell) (r : XReg) :
    (s.record k cells).readX r = s.readX r := rfl
@[simp] theorem writeCsr_readX (s : State) (c : Csr) (v : Word32) (r : XReg) :
    (s.writeCsr c v).readX r = s.readX r := readX_congr (by simp) (by simp) r
@[simp] theorem afterCsrRead_readX (s : State) (c : Csr) (r : XReg) :
    (s.afterCsrRead c).readX r = s.readX r := readX_congr (by simp) (by simp) r

/-! ### Tensor registers -/

@[simp] theorem readT_writeT_same (s : State) (r : TReg) (A : Tensor) : (s.writeT r A).readT r = A := by
  simp [State.writeT, State.readT]

theorem readT_writeT_other (s : State) (r q : TReg) (A : Tensor) (h : q ≠ r) :
    (s.writeT r A).readT q = s.readT q := by
  have hn : r.toNat ≠ q.toNat := fun e => h (BitVec.eq_of_toNat_eq e.symm)
  simp [State.writeT, State.readT, hn]

/-- Reading a tensor register looks at the tensor file alone. -/
theorem readT_congr {s t : State} (h : t.t = s.t) (r : TReg) : t.readT r = s.readT r := by
  simp [State.readT, h]

@[simp] theorem setPc_readT (s : State) (v : Word) (r : TReg) : (s.setPc v).readT r = s.readT r := rfl
@[simp] theorem advancePc_readT (s : State) (r : TReg) : s.advancePc.readT r = s.readT r := rfl
@[simp] theorem drew_readT (s : State) (n : Nat) (r : TReg) : (s.drew n).readT r = s.readT r := rfl
@[simp] theorem record_readT (s : State) (k : AccessKind) (cells : List Host.Cell) (r : TReg) :
    (s.record k cells).readT r = s.readT r := rfl
@[simp] theorem writeX_readT (s : State) (q : XReg) (v : Word) (r : TReg) :
    (s.writeX q v).readT r = s.readT r := readT_congr (by simp) r
@[simp] theorem writeCsr_readT (s : State) (c : Csr) (v : Word32) (r : TReg) :
    (s.writeCsr c v).readT r = s.readT r := readT_congr (by simp) r
@[simp] theorem afterCsrRead_readT (s : State) (c : Csr) (r : TReg) :
    (s.afterCsrRead c).readT r = s.readT r := readT_congr (by simp) r

/-! ### Bytes of a tensor -/

theorem bytesFrom_getElem (f : Nat → Byte) (n k i : Nat) (h : i < (bytesFrom f n k).length) :
    (bytesFrom f n k)[i] = f (k + i) := by
  induction n generalizing k i with
  | zero => simp [bytesFrom] at h
  | succ n ih =>
    cases i with
    | zero => simp [bytesFrom]
    | succ i =>
      simp only [bytesFrom, List.getElem_cons_succ]
      rw [ih]; congr 1; omega

/-- Every byte of a tensor built from a function is the function's. -/
@[simp] theorem ofBytes_byte (f : Nat → Byte) (k : Nat) (h : k < 1024) : (Tensor.ofBytes f).byte k = f k := by
  have := bytesFrom_getElem f 1024 0 k (by simpa [bytesFrom_length] using h)
  simpa [Tensor.byte, h, Tensor.ofBytes] using this

/-- Two tensors with the same 1024 bytes are equal. -/
theorem tensor_ext {A B : Tensor} (h : ∀ k, k < 1024 → A.byte k = B.byte k) : A = B := by
  apply Vector.ext
  intro k hk
  simpa [Tensor.byte, hk] using h k hk

end Sys2Proof.Machine
end

