-- ==== Sys2Proof/Laws/Memory.lean ====
section
/-! SUPPORT. Memory: every operation keeps the canonical form, a read after a write, the sets of recorded
events, and which addresses are the program's own instructions. -/

namespace Sys2Proof.Machine

/-! ### The canonical form -/

theorem wfAbove_mono {a b : Nat} (h : a ≤ b) (m : Memory) (hm : Memory.wfAbove b m = true) :
    Memory.wfAbove a m = true := by
  cases m with
  | nil => rfl
  | cons c m =>
    obtain ⟨d, v⟩ := c
    simp only [Memory.wfAbove, Bool.and_eq_true, decide_eq_true_eq] at hm ⊢
    exact ⟨⟨by omega, hm.1.2⟩, hm.2⟩

theorem wf_of_wfAbove {a : Nat} (m : Memory) (h : Memory.wfAbove a m = true) : Memory.wf m = true := by
  cases m with
  | nil => rfl
  | cons c m =>
    obtain ⟨d, v⟩ := c
    simp only [Memory.wfAbove, Memory.wf, Bool.and_eq_true] at h ⊢
    exact ⟨h.1.2, h.2⟩

theorem wf_tail {c : Host.Cell} {m : Memory} (h : Memory.wf (c :: m) = true) : Memory.wf m = true := by
  obtain ⟨d, v⟩ := c
  simp only [Memory.wf, Bool.and_eq_true] at h
  exact wf_of_wfAbove m h.2

theorem wfAbove_write {a b : Nat} (m : Memory) (v : Byte) (h : a < b) (hm : Memory.wfAbove a m = true) :
    Memory.wfAbove a (m.write b v) = true := by
  induction m generalizing a with
  | nil =>
    unfold Memory.write
    split
    · rfl
    · simp [Memory.wfAbove, *]
  | cons c m ih =>
    obtain ⟨d, w⟩ := c
    simp only [Memory.wfAbove, Bool.and_eq_true, decide_eq_true_eq, bne_iff_ne] at hm
    unfold Memory.write
    split
    · split
      · simp [Memory.wfAbove, hm]
      · simp [Memory.wfAbove, *]
    · split
      · split
        · exact wfAbove_mono (by omega) m hm.2
        · simp [Memory.wfAbove, *]
      · have := ih (a := d) (by omega) hm.2
        simp [Memory.wfAbove, hm, this]

/-- A write keeps the canonical form. -/
theorem wf_write (m : Memory) (a : Nat) (v : Byte) (h : Memory.wf m = true) :
    Memory.wf (m.write a v) = true := by
  cases m with
  | nil =>
    unfold Memory.write
    split
    · rfl
    · simp [Memory.wf, Memory.wfAbove, *]
  | cons c m =>
    obtain ⟨d, w⟩ := c
    simp only [Memory.wf, Bool.and_eq_true, bne_iff_ne] at h
    unfold Memory.write
    split
    · split
      · simp [Memory.wf, h]
      · simp [Memory.wf, Memory.wfAbove, *]
    · split
      · split
        · exact wf_of_wfAbove m h.2
        · simp [Memory.wf, *]
      · have := wfAbove_write m v (a := d) (b := a) (by omega) h.2
        simp [Memory.wf, h, this]

/-- Several writes keep the canonical form. -/
theorem wf_writeAll (m : Memory) (cells : List Host.Cell) (h : Memory.wf m = true) :
    Memory.wf (m.writeAll cells) = true := by
  unfold Memory.writeAll
  induction cells generalizing m with
  | nil => exact h
  | cons c cells ih => exact ih _ (wf_write m c.1 c.2 h)

/-- Placing an instruction's bytes keeps the canonical form. -/
theorem wf_placeBytes (x : Xlen) (m : Memory) (a : Nat) (bs : List Byte) (h : Memory.wf m = true) :
    Memory.wf (placeBytes x m a bs) = true := by
  induction bs generalizing m a with
  | nil => exact h
  | cons b bs ih => exact ih _ _ (wf_write m _ b h)

/-- Every listed address is a written one or was listed before. -/
theorem mem_write {m : Memory} {a : Nat} {v : Byte} {c : Host.Cell} (h : c ∈ m.write a v) :
    c ∈ m ∨ c = (a, v) := by
  induction m with
  | nil =>
    unfold Memory.write at h
    split at h
    · simp at h
    · exact .inr (by simpa using h)
  | cons d m ih =>
    obtain ⟨b, w⟩ := d
    unfold Memory.write at h
    split at h
    · split at h
      · exact .inl h
      · rcases List.mem_cons.mp h with h | h
        · exact .inr h
        · exact .inl h
    · split at h
      · rename_i he
        split at h
        · exact .inl (List.mem_cons_of_mem _ h)
        · rcases List.mem_cons.mp h with h | h
          · exact .inr (by rw [h, he])
          · exact .inl (List.mem_cons_of_mem _ h)
      · rcases List.mem_cons.mp h with h | h
        · exact .inl (by simp [h])
        · rcases ih h with h | h
          · exact .inl (List.mem_cons_of_mem _ h)
          · exact .inr h

/-! ### Reads -/

theorem read_wfAbove {a b : Nat} (m : Memory) (h : a ≤ b) (hm : Memory.wfAbove b m = true) :
    m.read a = Memory.unlisted := by
  cases m with
  | nil => rfl
  | cons c m =>
    obtain ⟨d, w⟩ := c
    simp only [Memory.wfAbove, Bool.and_eq_true, decide_eq_true_eq] at hm
    simp [Memory.read, show a < d by omega]

/-- A read after a write to the same address gives the byte written. -/
theorem read_write_same (m : Memory) (a : Nat) (v : Byte) (h : Memory.wf m = true) :
    (m.write a v).read a = v := by
  induction m with
  | nil =>
    unfold Memory.write
    split
    · simp [Memory.read, *]
    · simp [Memory.read]
  | cons c m ih =>
    obtain ⟨d, w⟩ := c
    have ht := wf_tail h
    simp only [Memory.wf, Bool.and_eq_true] at h
    unfold Memory.write
    split
    · split
      · simp [Memory.read, *]
      · simp [Memory.read]
    · split
      · rename_i he
        split
        · rename_i hv
          rw [hv]; exact read_wfAbove m (by omega) h.2
        · simp [Memory.read, he]
      · simp [Memory.read, *]

/-- A write leaves every other address alone. -/
theorem read_write_other (m : Memory) (a b : Nat) (v : Byte) (hb : b ≠ a) (h : Memory.wf m = true) :
    (m.write a v).read b = m.read b := by
  induction m with
  | nil =>
    unfold Memory.write
    split
    · rfl
    · simp only [Memory.read]; split
      · rfl
      · simp
  | cons c m ih =>
    obtain ⟨d, w⟩ := c
    have ht := wf_tail h
    simp only [Memory.wf, Bool.and_eq_true] at h
    unfold Memory.write
    split
    · rename_i had
      split
      · rfl
      · simp only [Memory.read]
        by_cases h1 : b < a
        · simp [h1, show b < d by omega]
        · simp [h1, hb]
    · split
      · rename_i hd
        split
        · by_cases h1 : b < d
          · rw [read_wfAbove m (by omega) h.2]; simp [Memory.read, h1]
          · simp [Memory.read, h1, show b ≠ d by omega]
        · simp only [Memory.read]
          by_cases h1 : b < d
          · simp [h1]
          · simp [h1, show b ≠ d by omega]
      · simp only [Memory.read, ih ht]

/-- Several writes leave every address they do not name alone. -/
theorem read_writeAll_other (m : Memory) (cells : List Host.Cell) (b : Nat)
    (hb : ∀ c ∈ cells, c.1 ≠ b) (h : Memory.wf m = true) : (m.writeAll cells).read b = m.read b := by
  unfold Memory.writeAll
  induction cells generalizing m with
  | nil => rfl
  | cons c cells ih =>
    simp only [List.foldl_cons]
    rw [ih _ (fun d hd => hb d (List.mem_cons_of_mem _ hd)) (wf_write m c.1 c.2 h)]
    exact read_write_other m c.1 b c.2 (fun e => hb c List.mem_cons_self e.symm) h

/-- Several writes to different addresses each land. -/
theorem read_writeAll_mem (m : Memory) (cells : List Host.Cell) (c : Host.Cell) (hc : c ∈ cells)
    (hd : cells.Pairwise fun d e => d.1 ≠ e.1) (h : Memory.wf m = true) :
    (m.writeAll cells).read c.1 = c.2 := by
  induction cells generalizing m with
  | nil => simp at hc
  | cons d cells ih =>
    obtain ⟨hd1, hd2⟩ := List.pairwise_cons.mp hd
    have hw := wf_write m d.1 d.2 h
    rcases List.mem_cons.mp hc with rfl | hc
    · have := read_writeAll_other (m.write c.1 c.2) cells c.1 (fun e he => (hd1 e he).symm) hw
      simp only [Memory.writeAll, List.foldl_cons] at this ⊢
      rw [this]; exact read_write_same m c.1 c.2 h
    · simpa [Memory.writeAll] using ih (m.write d.1 d.2) hc hd2 hw

/-! ### Sets of cells -/

theorem mem_insertCell {c d : Host.Cell} {ds : List Host.Cell} (h : d ∈ insertCell c ds) :
    d = c ∨ d ∈ ds := by
  induction ds with
  | nil => simpa [insertCell] using h
  | cons e ds ih =>
    unfold insertCell at h
    split at h
    · simpa using h
    · split at h
      · rcases List.mem_cons.mp h with h | h
        · exact .inl h
        · exact .inr (List.mem_cons_of_mem _ h)
      · rcases List.mem_cons.mp h with h | h
        · exact .inr (by simp [h])
        · rcases ih h with h | h
          · exact .inl h
          · exact .inr (List.mem_cons_of_mem _ h)

theorem insertCell_rising (c : Host.Cell) (ds : List Host.Cell) (h : ds.Pairwise fun d e => d.1 < e.1) :
    (insertCell c ds).Pairwise fun d e => d.1 < e.1 := by
  induction ds with
  | nil => simp [insertCell]
  | cons d ds ih =>
    obtain ⟨h1, h2⟩ := List.pairwise_cons.mp h
    unfold insertCell
    split
    · refine List.pairwise_cons.mpr ⟨?_, h⟩
      intro e he
      rcases List.mem_cons.mp he with rfl | he
      · assumption
      · have := h1 e he; omega
    · split
      · refine List.pairwise_cons.mpr ⟨fun e he => ?_, h2⟩
        have := h1 e he; omega
      · refine List.pairwise_cons.mpr ⟨fun e he => ?_, ih h2⟩
        rcases mem_insertCell he with rfl | he
        · omega
        · exact h1 e he

/-- Recorded events are held by strictly rising address. -/
theorem cellSet_rising (cells : List Host.Cell) : (cellSet cells).Pairwise fun d e => d.1 < e.1 := by
  unfold cellSet
  induction cells with
  | nil => simp
  | cons c cells ih => exact insertCell_rising c _ ih

theorem mem_insertCell_iff {c d : Host.Cell} {ds : List Host.Cell} (h : ∀ e ∈ ds, e.1 ≠ c.1) :
    d ∈ insertCell c ds ↔ d = c ∨ d ∈ ds := by
  refine ⟨mem_insertCell, fun hd => ?_⟩
  induction ds with
  | nil => simpa [insertCell] using hd
  | cons e ds ih =>
    have he : c.1 ≠ e.1 := (h e List.mem_cons_self).symm
    unfold insertCell
    split
    · simpa using hd
    · rcases hd with rfl | hd
      · exact List.mem_cons_of_mem _ (ih (fun f hf => h f (List.mem_cons_of_mem _ hf)) (.inl rfl))
      · rcases List.mem_cons.mp hd with rfl | hd
        · simp
        · exact List.mem_cons_of_mem _ (ih (fun f hf => h f (List.mem_cons_of_mem _ hf)) (.inr hd))

theorem mem_of_mem_cellSet {cells : List Host.Cell} {c : Host.Cell} (h : c ∈ cellSet cells) : c ∈ cells := by
  induction cells with
  | nil => simp [cellSet] at h
  | cons d cells ih =>
    rcases mem_insertCell (show c ∈ insertCell d (cellSet cells) from h) with rfl | h
    · simp
    · exact List.mem_cons_of_mem _ (ih h)

/-- The set of cells of a list with different addresses holds exactly the list's cells. -/
theorem mem_cellSet_iff {cells : List Host.Cell} (hd : cells.Pairwise fun d e => d.1 ≠ e.1) (c : Host.Cell) :
    c ∈ cellSet cells ↔ c ∈ cells := by
  induction cells with
  | nil => simp [cellSet]
  | cons d cells ih =>
    obtain ⟨h1, h2⟩ := List.pairwise_cons.mp hd
    change c ∈ insertCell d (cellSet cells) ↔ _
    rw [mem_insertCell_iff (fun e he => (h1 e (mem_of_mem_cellSet he)).symm), ih h2, List.mem_cons]

/-! ### The program's own instructions (R65) -/

/-- A span holds exactly the addresses `base + k`, `k` below its size, modulo `2^XLEN`. -/
theorem spanHolds_iff (x : Xlen) (p : Span) {a : Nat} (ha : a < 2 ^ x.bits) :
    spanHolds x p a = true ↔ ∃ k, k < p.size ∧ a = x.addr (p.base + k) := by
  have hp : 0 < 2 ^ x.bits := by positivity
  rw [spanHolds, decide_eq_true_iff]
  simp only [Xlen.addr]
  generalize 2 ^ x.bits = M at ha hp
  have hb := Nat.mod_lt p.base hp
  have hd := Nat.div_add_mod p.base M
  constructor
  · refine fun h => ⟨_, h, ?_⟩
    rw [Nat.add_mod_mod, ← hd, show M * (p.base / M) + p.base % M + (a + (M - (M * (p.base / M) + p.base % M) % M)) =
      a + M + M * (p.base / M) by rw [hd]; omega, Nat.add_mul_mod_self_left, Nat.add_mod_right, Nat.mod_eq_of_lt ha]
  · rintro ⟨k, hk, rfl⟩
    rw [Nat.mod_add_mod, ← hd, show M * (p.base / M) + p.base % M + k + (M - (M * (p.base / M) + p.base % M) % M) =
      k + M + M * (p.base / M) by rw [hd]; omega, Nat.add_mul_mod_self_left, Nat.add_mod_right]
    exact lt_of_le_of_lt (Nat.mod_le _ _) hk

/-- The program's own instructions: the word at the pc and the text the launch marked. -/
theorem inProgramText_iff (s : State) {a : Nat} (ha : a < 2 ^ s.cfg.xlen.bits) :
    inProgramText s a = true ↔ ∃ p ∈ s.programText, ∃ k, k < p.size ∧ a = s.cfg.xlen.addr (p.base + k) := by
  simp only [inProgramText, List.any_eq_true, spanHolds_iff _ _ ha]

/-- Every byte a load of a program places is text, wherever the program wraps. -/
theorem loadProgram_text (s : State) (words : List Word32) {k : Nat} (hk : k < 4 * words.length) :
    inProgramText (s.loadProgram words) (s.cfg.xlen.addr (s.readPc.toNat + k)) = true :=
  (inProgramText_iff _ (addr_lt _ _)).mpr
    ⟨{ base := s.readPc.toNat, size := 4 * words.length }, by simp [State.programText, State.loadProgram], k, hk, rfl⟩

/-- So is every byte of a placed word. -/
theorem placeWord_text (s : State) (w : Word32) {k : Nat} (hk : k < 4) :
    inProgramText (s.placeWord w) (s.cfg.xlen.addr (s.readPc.toNat + k)) = true :=
  (inProgramText_iff _ (addr_lt _ _)).mpr ⟨s.ownWord, by simp [State.programText, State.placeWord], k, hk, rfl⟩

/-- Memory right after reset has the canonical form. -/
theorem wf_reset (c : Config) : Memory.wf (State.resetWith c).mem = true := rfl

end Sys2Proof.Machine
end

