-- ==== Sys2Proof/Laws/Operands.lean ====
section
/-! SUPPORT. Shapes and linear indices: `lin` and `unlin` are inverse, exchanging two dimensions keeps the number
of elements, and where the elements of a slice lie. -/

namespace Sys2Proof.Machine

/-! ### Exchanging two dimensions -/

theorem Dim.swap_swap (a b k : Dim) : Dim.swap a b (Dim.swap a b k) = k := by
  cases a <;> cases b <;> cases k <;> rfl

@[simp] theorem swap_swap (a b : Dim) (v : Four) : (v.swap a b).swap a b = v := by
  cases a <;> cases b <;> rfl

theorem swap_inside {c D : Four} (a b : Dim) (h : c.inside D = true) :
    (c.swap a b).inside (D.swap a b) = true := by
  simp only [Four.inside, Bool.and_eq_true, decide_eq_true_eq] at h
  obtain ⟨⟨⟨h0, h1⟩, h2⟩, h3⟩ := h
  cases a <;> cases b <;> simp [Four.inside, Four.swap, Four.get, Dim.swap, *]

theorem swap_count (a b : Dim) (D : Four) : (D.swap a b).count = D.count := by
  cases a <;> cases b <;> dsimp [Four.count, Four.swap, Four.get, Dim.swap] <;> ring

theorem swap_valid (a b : Dim) (D : Four) (h : D.valid = true) : (D.swap a b).valid = true := by
  simp only [Four.valid, Bool.and_eq_true, decide_eq_true_eq, swap_count] at h ⊢
  obtain ⟨⟨⟨⟨h0, h1⟩, h2⟩, h3⟩, h4⟩ := h
  cases a <;> cases b <;> simp [Four.swap, Four.get, Dim.swap, *]

/-! ### `lin` and `unlin` -/

theorem valid_iff (D : Four) : D.valid = true ↔
    1 ≤ D.d0 ∧ 1 ≤ D.d1 ∧ 1 ≤ D.d2 ∧ 1 ≤ D.d3 ∧ D.count ≤ 1024 := by
  simp [Four.valid, and_assoc]

theorem inside_iff (c D : Four) : c.inside D = true ↔
    c.d0 < D.d0 ∧ c.d1 < D.d1 ∧ c.d2 < D.d2 ∧ c.d3 < D.d3 := by
  simp [Four.inside, and_assoc]

/-- `lin` in nested form, as a mixed-radix number. -/
theorem lin_nested (c D : Four) : lin c D = ((c.d0 * D.d1 + c.d1) * D.d2 + c.d2) * D.d3 + c.d3 := by
  simp only [lin]; ring

/-- The linear index of coordinates inside a shape is below the number of elements. -/
theorem lin_lt {c D : Four} (h : c.inside D = true) : lin c D < D.count := by
  obtain ⟨h0, h1, h2, h3⟩ := (inside_iff c D).mp h
  rw [lin_nested, Four.count]
  have e1 : c.d0 * D.d1 + c.d1 + 1 ≤ D.d0 * D.d1 := by nlinarith
  have e2 : (c.d0 * D.d1 + c.d1) * D.d2 + c.d2 + 1 ≤ D.d0 * D.d1 * D.d2 := by nlinarith
  nlinarith

theorem radix_div {q r n : Nat} (h : r < n) : (q * n + r) / n = q := by
  rw [mul_comm, Nat.mul_add_div (by omega), Nat.div_eq_of_lt h, add_zero]

theorem radix_mod {q r n : Nat} (h : r < n) : (q * n + r) % n = r := by
  rw [mul_comm, Nat.mul_add_mod, Nat.mod_eq_of_lt h]

/-- `unlin` in nested form. -/
theorem unlin_nested (j : Nat) (D : Four) : unlin j D =
    { d0 := j / D.d3 / D.d2 / D.d1, d1 := j / D.d3 / D.d2 % D.d1, d2 := j / D.d3 % D.d2, d3 := j % D.d3 } := by
  have e : j / (D.d1 * D.d2 * D.d3) = j / D.d3 / D.d2 / D.d1 := by
    rw [Nat.div_div_eq_div_mul, Nat.div_div_eq_div_mul]; congr 1; ring
  have e' : j / (D.d2 * D.d3) = j / D.d3 / D.d2 := by
    rw [Nat.div_div_eq_div_mul]; congr 1; ring
  simp only [unlin, e, e']

/-- The coordinates of a linear index are those it was made of. -/
theorem unlin_lin {c D : Four} (h : c.inside D = true) : unlin (lin c D) D = c := by
  obtain ⟨h0, h1, h2, h3⟩ := (inside_iff c D).mp h
  rw [unlin_nested, lin_nested]
  simp only [radix_div h3, radix_mod h3, radix_div h2, radix_mod h2, radix_div h1, radix_mod h1]

/-- The coordinates of an index below the number of elements are inside the shape. -/
theorem unlin_inside {j : Nat} {D : Four} (h : j < D.count) : (unlin j D).inside D = true := by
  have pos : 0 < D.d0 * D.d1 * D.d2 * D.d3 := lt_of_le_of_lt (Nat.zero_le j) h
  have p3 : 0 < D.d3 := by
    rcases Nat.eq_zero_or_pos D.d3 with e | e
    · simp [e] at pos
    · exact e
  have p2 : 0 < D.d2 := by
    rcases Nat.eq_zero_or_pos D.d2 with e | e
    · simp [e] at pos
    · exact e
  have p1 : 0 < D.d1 := by
    rcases Nat.eq_zero_or_pos D.d1 with e | e
    · simp [e] at pos
    · exact e
  rw [inside_iff, unlin_nested]
  refine ⟨?_, Nat.mod_lt _ p1, Nat.mod_lt _ p2, Nat.mod_lt _ p3⟩
  simp only [Four.count] at h
  rw [Nat.div_lt_iff_lt_mul p1, Nat.div_lt_iff_lt_mul p2, Nat.div_lt_iff_lt_mul p3]
  exact h

/-- The linear index of an index's coordinates is the index. -/
theorem lin_unlin (j : Nat) (D : Four) : lin (unlin j D) D = j := by
  rw [unlin_nested, lin_nested]
  simp only [Nat.div_add_mod']

/-! ### The transpose function -/

/-- R101: the element at source coordinates `c` goes to the coordinates with `a` and `b` exchanged. -/
theorem xposeByte_lin (A : Tensor) {c D : Four} (a b : Dim) (h : c.inside D = true) :
    xposeByte A D a b (lin (c.swap a b) (D.swap a b)) = A.byte (lin c D) := by
  rw [xposeByte, unlin_lin (swap_inside a b h), swap_swap]

/-! ### Slices -/

theorem count_eq_slices (D : Four) : D.count = D.d0 * D.sliceSize := by
  simp only [Four.count, Four.sliceSize]; ring

theorem sliceSize_pos {D : Four} (h : D.valid = true) : 0 < D.sliceSize := by
  obtain ⟨_, h1, h2, h3, _⟩ := (valid_iff D).mp h
  simp only [Four.sliceSize]; positivity

theorem slice_div {D : Four} {i k : Nat} (h : k < D.sliceSize) : (i * D.sliceSize + k) / D.sliceSize = i :=
  radix_div h

theorem slice_mod {D : Four} {i k : Nat} (h : k < D.sliceSize) : (i * D.sliceSize + k) % D.sliceSize = k :=
  radix_mod h

/-- An element of a slice lies inside the tensor. -/
theorem slice_lt {D : Four} {i k : Nat} (hi : i < D.d0) (hk : k < D.sliceSize) :
    i * D.sliceSize + k < D.count := by
  rw [count_eq_slices]; nlinarith

/-- The address of element `k` of slice `i` by its linear index (R152). -/
theorem indexAddress_slice (c : Config) (D : Four) (m : Word32) (base : Word) {i k : Nat} (h : k < D.sliceSize) :
    indexAddress c D m base (i * D.sliceSize + k) = elementAddress c D m base i k := by
  rw [indexAddress, slice_div h, slice_mod h]

/-- Whether an element of a slice is accessed is whether the mask selects the slice (R151). -/
theorem accessed_slice {D : Four} (m : Word32) {i k : Nat} (hi : i < D.d0) (hk : k < D.sliceSize) :
    accessed D m (i * D.sliceSize + k) = selects m i := by
  simp [accessed, slice_div hk, slice_lt hi hk]

end Sys2Proof.Machine
end

