-- ==== Sys2Proof/Laws/Exec.lean ====
section
/-! SUPPORT. What each shared operation behind the meanings can do, said once: the accesses of a tensor memory
instruction and their addresses, the judgement over them, a Zicsr access, and a step. -/

namespace Sys2Proof.Machine

/-! ### The accesses of a tensor memory instruction -/

theorem mem_accessesOf (c : Config) {D : Four} (m : Word32) (base : Word) (hS : 0 < D.sliceSize) (a : Access) :
    a ∈ accessesOf c D m base ↔ ∃ i k, i < D.d0 ∧ k < D.sliceSize ∧ selects m i = true ∧
      a = { index := i * D.sliceSize + k, address := elementAddress c D m base i k } := by
  simp only [accessesOf, List.mem_map, List.mem_filter, List.mem_range]
  constructor
  · rintro ⟨e, ⟨he, ha⟩, rfl⟩
    refine ⟨e / D.sliceSize, e % D.sliceSize, ?_, Nat.mod_lt _ hS, ?_, ?_⟩
    · rw [Nat.div_lt_iff_lt_mul hS, ← count_eq_slices]; exact he
    · simpa [accessed, he] using ha
    · simp [Nat.div_add_mod', indexAddress]
  · rintro ⟨i, k, hi, hk, hs, rfl⟩
    exact ⟨i * D.sliceSize + k, ⟨slice_lt hi hk, by rw [accessed_slice m hi hk, hs]⟩,
      by rw [indexAddress_slice c D m base hk]⟩

/-- The selected addresses are the addresses of the accesses. -/
theorem selectedAddress_iff (c : Config) {D : Four} (m : Word32) (base : Word) (hS : 0 < D.sliceSize) (x : Nat) :
    SelectedAddress c D m base x ↔ ∃ a ∈ accessesOf c D m base, a.address = x := by
  constructor
  · rintro ⟨i, k, hi, hk, hs, rfl⟩
    exact ⟨_, (mem_accessesOf c m base hS _).mpr ⟨i, k, hi, hk, hs, rfl⟩, rfl⟩
  · rintro ⟨a, ha, rfl⟩
    obtain ⟨i, k, hi, hk, hs, rfl⟩ := (mem_accessesOf c m base hS a).mp ha
    exact ⟨i, k, hi, hk, hs, rfl⟩

theorem rank_le (m : Word32) (i : Nat) : rank m i ≤ i := by
  simpa [rank] using List.countP_le_length (p := selects m) (l := List.range i)

/-- A selected slice adds one to the rank of every later slice. -/
theorem rank_lt (m : Word32) {i j : Nat} (h : i < j) (hs : selects m i = true) : rank m i < rank m j := by
  induction j with
  | zero => omega
  | succ j ih =>
    have e : rank m (j + 1) = rank m j + (if selects m j = true then 1 else 0) := by
      simp [rank, List.range_succ, List.countP_append, List.countP_cons]
    rcases Nat.lt_or_eq_of_le (Nat.lt_succ_iff.mp h) with h | rfl
    · have := ih h; omega
    · rw [e, if_pos hs]; omega

/-- The offset of an accessed element from the base, before the reduction modulo `2^XLEN`. -/
def accessOffset (c : Config) (D : Four) (m : Word32) (e : Nat) : Nat :=
  match c.memLayout with
  | .inplace => e
  | .packed => rank m (e / D.sliceSize) * D.sliceSize + e % D.sliceSize

theorem indexAddress_eq (c : Config) (D : Four) (m : Word32) (base : Word) (e : Nat) :
    indexAddress c D m base e = (base.toNat + accessOffset c D m e) % 2 ^ c.xlen.bits := by
  unfold indexAddress elementAddress accessOffset Xlen.addr
  cases c.memLayout
  · simp only [Nat.add_assoc, Nat.div_add_mod']
  · simp only [Nat.add_assoc]

theorem accessOffset_le (c : Config) (D : Four) (m : Word32) (e : Nat) : accessOffset c D m e ≤ e := by
  unfold accessOffset
  split
  · exact le_refl e
  · have h1 := Nat.mul_le_mul_right D.sliceSize (rank_le m (e / D.sliceSize))
    have h2 := Nat.div_add_mod' e D.sliceSize
    omega

theorem accessOffset_lt (c : Config) {D : Four} (m : Word32) {e f : Nat} (hS : 0 < D.sliceSize) (h : e < f)
    (hs : selects m (e / D.sliceSize) = true) : accessOffset c D m e < accessOffset c D m f := by
  unfold accessOffset
  split
  · exact h
  · rcases Nat.lt_or_eq_of_le (Nat.div_le_div_right (c := D.sliceSize) h.le) with hq | hq
    · have h1 := rank_lt m hq hs
      have h2 := Nat.mod_lt e hS
      have h3 := Nat.mul_le_mul_right D.sliceSize h1
      have h4 : (rank m (e / D.sliceSize)).succ * D.sliceSize =
          rank m (e / D.sliceSize) * D.sliceSize + D.sliceSize := Nat.succ_mul _ _
      omega
    · have h1 := Nat.div_add_mod' e D.sliceSize
      have h2 := Nat.div_add_mod' f D.sliceSize
      rw [hq] at h1
      rw [hq]; omega

/-- Different accesses of one instruction go to different addresses (20_memory.md R55). -/
theorem accesses_distinct (c : Config) {D : Four} (m : Word32) (base : Word) (hv : D.valid = true) :
    (accessesOf c D m base).Pairwise fun a b => a.address ≠ b.address := by
  have hS := sliceSize_pos hv
  have hN : D.count ≤ 1024 := ((valid_iff D).mp hv).2.2.2.2
  rw [accessesOf, List.pairwise_map]
  refine List.Pairwise.imp_of_mem ?_ (List.pairwise_lt_range.filter _)
  intro e f he hf hlt heq
  simp only [List.mem_filter, List.mem_range, accessed, Bool.and_eq_true, decide_eq_true_eq] at he hf
  have h1 := accessOffset_lt c m hS hlt he.2.2
  have h2 := accessOffset_le c D m f
  simp only [indexAddress_eq] at heq
  have hb : 1024 < 2 ^ c.xlen.bits := by cases c.xlen <;> simp [Xlen.bits]
  generalize 2 ^ c.xlen.bits = M at heq hb
  have hm : M ∣ accessOffset c D m f - accessOffset c D m e := by
    have := (Nat.modEq_iff_dvd' (by omega : base.toNat + accessOffset c D m e ≤
      base.toNat + accessOffset c D m f)).mp heq
    rwa [Nat.add_sub_add_left] at this
  exact absurd (Nat.le_of_dvd (by omega) hm) (by omega)

theorem access_address_lt {c : Config} {D : Four} {m : Word32} {base : Word} {a : Access}
    (h : a ∈ accessesOf c D m base) : a.address < 2 ^ c.xlen.bits := by
  simp only [accessesOf, List.mem_map] at h
  obtain ⟨e, _, rfl⟩ := h
  simp only [indexAddress_eq]; exact Nat.mod_lt _ (by positivity)

/-- Accesses of one instruction with the same address are the same access. -/
theorem access_eq_of_address {l : List Access} (h : l.Pairwise fun a b => a.address ≠ b.address) {a b : Access}
    (ha : a ∈ l) (hb : b ∈ l) (e : a.address = b.address) : a = b := by
  induction h with
  | nil => simp at ha
  | cons h1 h2 ih =>
    rcases List.mem_cons.mp ha with ha | ha <;> rcases List.mem_cons.mp hb with hb | hb
    · rw [ha, hb]
    · exact absurd e (ha ▸ h1 _ hb)
    · exact absurd e.symm (hb ▸ h1 _ ha)
    · exact ih ha hb

/-- The cells one store instruction writes have different addresses. -/
theorem storeCells_distinct {c : Config} {D : Four} {m : Word32} {base : Word} (A : Tensor) (hv : D.valid = true) :
    (storeCells A (accessesOf c D m base)).Pairwise fun d e => d.1 ≠ e.1 := by
  simp only [storeCells, List.pairwise_map]; exact accesses_distinct c m base hv

/-- After the stores of one instruction each address accessed holds its element. -/
theorem read_storeCells {c : Config} {D : Four} {m : Word32} {base : Word} (A : Tensor) {M : Memory}
    (hm : M.wf = true) (hv : D.valid = true) {a : Access} (h : a ∈ accessesOf c D m base) :
    (M.writeAll (storeCells A (accessesOf c D m base))).read a.address = A.byte a.index :=
  read_writeAll_mem M _ (a.address, A.byte a.index) (List.mem_map.mpr ⟨a, h, rfl⟩) (storeCells_distinct A hv) hm

/-- What a completed `tl.mload` records: every selected address with the byte read there (R67). -/
theorem mem_loadCells {c : Config} {D : Four} {m : Word32} {base : Word} {M : Memory} (hv : D.valid = true)
    (d : Host.Cell) : d ∈ cellSet (loadCells M (accessesOf c D m base)) ↔
      SelectedAddress c D m base d.1 ∧ d.2 = M.read d.1 := by
  rw [mem_cellSet_iff, selectedAddress_iff _ _ _ (sliceSize_pos hv)]
  · simp only [loadCells, List.mem_map]
    constructor
    · rintro ⟨a, ha, rfl⟩; exact ⟨⟨a, ha, rfl⟩, rfl⟩
    · rintro ⟨⟨a, ha, h⟩, h2⟩; exact ⟨a, ha, by rw [← h] at h2; exact Prod.ext h h2.symm⟩
  · simp only [loadCells, List.pairwise_map]; exact accesses_distinct c m base hv

/-- What a completed `tl.mstore` records: every selected address with the byte now held there (R67). -/
theorem mem_storeCells {c : Config} {D : Four} {m : Word32} {base : Word} {M : Memory} (A : Tensor) (hm : M.wf = true)
    (hv : D.valid = true) (d : Host.Cell) : d ∈ cellSet (storeCells A (accessesOf c D m base)) ↔
      SelectedAddress c D m base d.1 ∧ d.2 = (M.writeAll (storeCells A (accessesOf c D m base))).read d.1 := by
  rw [mem_cellSet_iff (storeCells_distinct A hv), selectedAddress_iff _ _ _ (sliceSize_pos hv)]
  simp only [storeCells, List.mem_map]
  constructor
  · rintro ⟨a, ha, rfl⟩; exact ⟨⟨a, ha, rfl⟩, (read_storeCells A hm hv ha).symm⟩
  · rintro ⟨⟨a, ha, h⟩, h2⟩
    exact ⟨a, ha, Prod.ext h (by rw [h2, ← h]; exact (read_storeCells A hm hv ha).symm)⟩

/-! ### The judgement over the accesses (R154, R57, R65) -/

theorem checkAccesses_admitted {s : State} {kind : AccessKind} {acc : List Access}
    (h : ∀ a ∈ acc, admitsData s.cfg kind a.address = true ∧ isIdempotent s.cfg a.address = true ∧
      (kind = .write → inProgramText s a.address = false)) : checkAccesses s kind acc = .admitted := by
  simp only [checkAccesses]
  rw [List.find?_eq_none.mpr, List.find?_eq_none.mpr, List.filter_eq_nil_iff.mpr]
  · intro a ha; simp [(h a ha).1]
  · intro a ha
    have := h a (List.mem_of_mem_filter ha)
    cases kind <;> simp_all
  · intro a ha; simp [(h a (List.mem_of_mem_filter ha)).2.1]

theorem checkAccesses_notAdmitted {s : State} {kind : AccessKind} {acc : List Access}
    (h : ∀ a ∈ acc, admitsData s.cfg kind a.address = true → isIdempotent s.cfg a.address = true ∧
      (kind = .write → inProgramText s a.address = false))
    (hb : ∃ a ∈ acc, admitsData s.cfg kind a.address = false) :
    ∃ bad, checkAccesses s kind acc = .notAdmitted bad ∧ bad ≠ [] ∧
      ∀ a ∈ bad, a ∈ acc ∧ admitsData s.cfg kind a.address = false := by
  refine ⟨acc.filter fun a => !admitsData s.cfg kind a.address, ?_, ?_, ?_⟩
  · simp only [checkAccesses]
    rw [List.find?_eq_none.mpr, List.find?_eq_none.mpr]
    · obtain ⟨a, ha, hf⟩ := hb
      have hm : a ∈ acc.filter fun a => !admitsData s.cfg kind a.address := by simp [ha, hf]
      dsimp only
      cases he : acc.filter fun a => !admitsData s.cfg kind a.address with
      | nil => rw [he] at hm; simp at hm
      | cons b bs => rfl
    · intro a ha
      obtain ⟨h1, h2⟩ := List.mem_filter.mp ha
      have := h a h1 h2
      cases kind <;> simp_all
    · intro a ha
      obtain ⟨h1, h2⟩ := List.mem_filter.mp ha
      simp [(h a h1 h2).1]
  · obtain ⟨a, ha, hf⟩ := hb
    exact List.ne_nil_of_mem (a := a) (by simp [ha, hf])
  · intro a ha; simpa using ha

theorem checkAccesses_nonIdempotent {s : State} {kind : AccessKind} {acc : List Access}
    (h : ∃ a ∈ acc, admitsData s.cfg kind a.address = true ∧ isIdempotent s.cfg a.address = false) :
    ∃ a ∈ acc, checkAccesses s kind acc = .refuse (.nonIdempotentLocation a.address) ∧
      admitsData s.cfg kind a.address = true ∧ isIdempotent s.cfg a.address = false := by
  obtain ⟨b, hb, h1, h2⟩ := h
  simp only [checkAccesses]
  cases hf : (acc.filter fun a => admitsData s.cfg kind a.address).find? fun a => !isIdempotent s.cfg a.address with
  | none =>
    have := List.find?_eq_none.mp hf b (List.mem_filter.mpr ⟨hb, h1⟩)
    simp [h2] at this
  | some a =>
    have hm := List.mem_filter.mp (List.mem_of_find?_eq_some hf)
    exact ⟨a, hm.1, rfl, hm.2,
      by simpa using List.find?_some hf⟩

theorem checkAccesses_text {s : State} {acc : List Access}
    (h : ∀ a ∈ acc, admitsData s.cfg .write a.address = true → isIdempotent s.cfg a.address = true)
    (ht : ∃ a ∈ acc, admitsData s.cfg .write a.address = true ∧ inProgramText s a.address = true) :
    ∃ a ∈ acc, checkAccesses s .write acc = .refuse (.storeIntoProgramText a.address) ∧
      admitsData s.cfg .write a.address = true ∧ inProgramText s a.address = true := by
  obtain ⟨b, hb, h1, h2⟩ := ht
  simp only [checkAccesses]
  rw [List.find?_eq_none.mpr]
  · cases hf : (acc.filter fun a => admitsData s.cfg .write a.address).find?
        fun a => AccessKind.write == .write && inProgramText s a.address with
    | none =>
      have := List.find?_eq_none.mp hf b (List.mem_filter.mpr ⟨hb, h1⟩)
      simp [h2] at this
    | some a =>
      have hm := List.mem_filter.mp (List.mem_of_find?_eq_some hf)
      exact ⟨a, hm.1, rfl, hm.2,
        by simpa using List.find?_some hf⟩
  · intro a ha
    obtain ⟨h1, h2⟩ := List.mem_filter.mp ha
    simp [h a h1 h2]

/-- The faulting address a trap reports is that of one of the accesses not admitted (R154, R203). -/
theorem reportedAddress_mem (s : State) {bad : List Access} (h : bad ≠ []) :
    ∃ a ∈ bad, reportedAddress s bad = BitVec.ofNat 64 a.address := by
  have hl : Config.freeChoice s.draws % bad.length < bad.length :=
    Nat.mod_lt _ (List.length_pos_iff.mpr h)
  refine ⟨bad[Config.freeChoice s.draws % bad.length], List.getElem_mem hl, ?_⟩
  simp [reportedAddress, List.getElem?_eq_getElem hl]

/-! ### The next states and traps of the shared operations -/

theorem xposeInsn_valid (a b : Dim) (rd rs1 : TReg) (rs2 : XReg) (s : State)
    (h : (shapeOf (s.readX32 rs2)).valid = true) :
    xposeInsn a b rd rs1 rs2 s = .next ((s.writeT rd (Tensor.ofBytes fun k =>
      if k < (shapeOf (s.readX32 rs2)).count then xposeByte (s.readT rs1) (shapeOf (s.readX32 rs2)) a b k
      else s.unassignedByte rd k)).drew 1024).advancePc := if_pos h

theorem xposeInsn_invalid (a b : Dim) (rd rs1 : TReg) (rs2 : XReg) (s : State)
    (h : ¬ (shapeOf (s.readX32 rs2)).valid = true) :
    xposeInsn a b rd rs1 rs2 s = .refused (.invalidDescriptor (s.readX32 rs2)) := if_neg h

/-- An instruction that writes `T[rd]`, spends draws and advances touches nothing else. -/
theorem onlyTensor_write (rd : TReg) (A : Tensor) (n : Nat) (s : State) :
    OnlyTensor rd s ((s.writeT rd A).drew n).advancePc where
  keepsX := fun r => by simp
  keepsT := fun r h => by simp [readT_writeT_other s rd r A h]
  keepsCsrs := fun c => by simp
  keepsMem := fun a => by simp
  keepsCfg := by simp

/-- What the byte `unassignedByte` comes to under either value of `TL_UNASSIGNED` (R16). -/
theorem leftUnassigned_of {rd : TReg} {n : Nat} {s t : State}
    (h : Tensor.byte (t.readT rd) n = s.unassignedByte rd n) : LeftUnassigned rd n s t :=
  ⟨fun hu => by rw [h, State.unassignedByte, hu], fun hu => by rw [h, State.unassignedByte, hu]; rfl⟩

theorem csrInsn_none {i : Instr} {rd : XReg} {csr : BitVec 12} {r w : Bool} {f : Word32 → Word32} {s : State}
    (h : Csr.ofAddress csr = none) : csrInsn i rd csr r w f s =
      .fault (raise .illegalInstruction (illegalValueOf s.cfg (encode i)) s) := by
  simp [csrInsn, h]

/-- What a Zicsr access of an implemented CSR does, in the terms of the rules R180 to R185. -/
theorem csrInsn_some {i : Instr} {rd : XReg} {csr : BitVec 12} {r w : Bool} {f : Word32 → Word32} {s : State}
    {c : Csr} (h : Csr.ofAddress csr = some c) : ∃ t, csrInsn i rd csr r w f s = .next t ∧
      (r = true → rd ≠ 0 → t.readX rd = (s.csrValue c).setWidth 64) ∧
      (r = false ∨ rd = 0 → t.x = s.x) ∧
      (c ≠ .xposeStatus → t.csr c = if w then f (s.csr c) else s.csr c) ∧
      (c ≠ .xposeStatus → t.draws = s.draws) ∧ OnlyCsr rd c s t ∧ Advanced s t := by
  have hval : ∀ v : Word32, s.cfg.xlen.wrap (v.setWidth 64) = v.setWidth 64 := by
    intro v
    cases s.cfg.xlen
    · apply BitVec.eq_of_toNat_eq
      have := v.isLt
      simp [Xlen.wrap]
    · rfl
  refine ⟨_, by simp [csrInsn, h]; rfl, ?_, ?_, ?_, ?_, ?_, ?_⟩
  · rintro rfl hrd
    cases w <;> simp [readX_writeX_same _ _ _ hrd, hval]
  · rintro (rfl | rfl)
    · cases w <;> simp
    · cases w <;> cases r <;> simp
  · intro hc
    cases w <;> cases r <;>
      simp [afterCsrRead_plain s c hc, writeCsr_csr_same _ c _ hc, csrValue_plain s c hc]
  · intro hc
    cases w <;> cases r <;> simp [afterCsrRead_plain s c hc]
  · constructor
    · intro q hq
      cases w <;> cases r <;> simp [readX_writeX_other _ _ _ _ hq]
    · intro q; cases w <;> cases r <;> simp
    · intro d hd; cases w <;> cases r <;> simp [hd]
    · intro a; cases w <;> cases r <;> simp
    · cases w <;> cases r <;> simp
    · cases w <;> cases r <;> simp
  · cases w <;> cases r <;> simp [Advanced]

/-- A Zicsr access of `tl_xpose_status` is its read, where the form makes one: the write does nothing (R36). -/
theorem csrInsn_status {csr : BitVec 12} (h : Csr.ofAddress csr = some .xposeStatus) (i : Instr) (rd : XReg)
    (r w : Bool) (f : Word32 → Word32) (s : State) : csrInsn i rd csr r w f s =
      .next (if r then (s.afterCsrRead .xposeStatus).writeX rd ((Config.freeWord s.draws).setWidth 64) else s).advancePc := by
  simp only [csrInsn, h]
  cases w <;> rfl

/-! ### What each instruction is, over the shared operations -/

theorem exec_tlXpose01 (rd rs1 : TReg) (rs2 : XReg) (s : State) :
    exec (.tlXpose01 rd rs1 rs2) s = xposeInsn .dim0 .dim1 rd rs1 rs2 s := rfl
theorem exec_tlXpose02 (rd rs1 : TReg) (rs2 : XReg) (s : State) :
    exec (.tlXpose02 rd rs1 rs2) s = xposeInsn .dim0 .dim2 rd rs1 rs2 s := rfl
theorem exec_tlXpose03 (rd rs1 : TReg) (rs2 : XReg) (s : State) :
    exec (.tlXpose03 rd rs1 rs2) s = xposeInsn .dim0 .dim3 rd rs1 rs2 s := rfl
theorem exec_tlXpose12 (rd rs1 : TReg) (rs2 : XReg) (s : State) :
    exec (.tlXpose12 rd rs1 rs2) s = xposeInsn .dim1 .dim2 rd rs1 rs2 s := rfl
theorem exec_tlXpose13 (rd rs1 : TReg) (rs2 : XReg) (s : State) :
    exec (.tlXpose13 rd rs1 rs2) s = xposeInsn .dim1 .dim3 rd rs1 rs2 s := rfl
theorem exec_tlXpose23 (rd rs1 : TReg) (rs2 : XReg) (s : State) :
    exec (.tlXpose23 rd rs1 rs2) s = xposeInsn .dim2 .dim3 rd rs1 rs2 s := rfl
theorem exec_tlConcat0 (rd rs1 rs2 : TReg) (s : State) :
    exec (.tlConcat0 rd rs1 rs2) s = concatInsn rd rs1 rs2 s := rfl
theorem exec_tlConcat1 (rd rs1 rs2 : TReg) (s : State) :
    exec (.tlConcat1 rd rs1 rs2) s = concatInsn rd rs1 rs2 s := rfl
theorem exec_tlConcat2 (rd rs1 rs2 : TReg) (s : State) :
    exec (.tlConcat2 rd rs1 rs2) s = concatInsn rd rs1 rs2 s := rfl
theorem exec_csrrw (rd : XReg) (csr : BitVec 12) (rs1 : XReg) (s : State) :
    exec (.csrrw rd csr rs1) s = csrInsn (.csrrw rd csr rs1) rd csr (rd != 0) true
      (fun _ => s.readX32 rs1) s := rfl
theorem exec_csrrs (rd : XReg) (csr : BitVec 12) (rs1 : XReg) (s : State) :
    exec (.csrrs rd csr rs1) s = csrInsn (.csrrs rd csr rs1) rd csr true (rs1 != 0)
      (fun old => old ||| s.readX32 rs1) s := rfl
theorem exec_csrrc (rd : XReg) (csr : BitVec 12) (rs1 : XReg) (s : State) :
    exec (.csrrc rd csr rs1) s = csrInsn (.csrrc rd csr rs1) rd csr true (rs1 != 0)
      (fun old => old &&& ~~~(s.readX32 rs1)) s := rfl
theorem exec_csrrwi (rd : XReg) (csr : BitVec 12) (uimm : BitVec 5) (s : State) :
    exec (.csrrwi rd csr uimm) s = csrInsn (.csrrwi rd csr uimm) rd csr (rd != 0) true
      (fun _ => uimm.setWidth 32) s := rfl
theorem exec_csrrsi (rd : XReg) (csr : BitVec 12) (uimm : BitVec 5) (s : State) :
    exec (.csrrsi rd csr uimm) s = csrInsn (.csrrsi rd csr uimm) rd csr true (uimm != 0)
      (fun old => old ||| uimm.setWidth 32) s := rfl
theorem exec_csrrci (rd : XReg) (csr : BitVec 12) (uimm : BitVec 5) (s : State) :
    exec (.csrrci rd csr uimm) s = csrInsn (.csrrci rd csr uimm) rd csr true (uimm != 0)
      (fun old => old &&& ~~~(uimm.setWidth 32)) s := rfl

/-! ### A step -/

/-- Everything a step can be: the end of a run, a trap of the front end, or an instruction's execution. -/
theorem step_cases (s : State) :
    (s.atHalt = true ∧ step s = .next s) ∨
    (∃ e v, step s = .fault (raise e v s)) ∨
    (Fetchable s ∧ ∃ i, s.cfg.decode s.fetchBytes = .ok i ∧ step s = exec i s) := by
  unfold step State.fetch
  by_cases h1 : s.atHalt = true
  · exact .inl ⟨h1, by simp [h1]⟩
  by_cases h2 : s.pcAligned = true
  swap
  · exact .inr (.inl ⟨.instructionAddressMisaligned, s.readPc, by simp [h1, h2]⟩)
  by_cases h3 : s.fetchAdmitted = true
  swap
  · exact .inr (.inl ⟨.instructionAccessFault, s.readPc, by simp [h1, h2, h3]⟩)
  cases h4 : s.cfg.decode s.fetchBytes with
  | ok i => exact .inr (.inr ⟨⟨by simpa using h1, h2, h3⟩, i, rfl, by simp [h1, h2, h3]⟩)
  | reject why =>
    exact .inr (.inl ⟨.illegalInstruction, illegalValueOf s.cfg s.fetchWord, by simp [h1, h2, h3]⟩)

end Sys2Proof.Machine
end

