-- ==== Sys2Proof/Laws/Next.lean ====
section
/-! SUPPORT. Everything a completed instruction can do to the state, said once: `exec_next` is the inversion lemma of
`exec`, from which rules over all instructions follow without unfolding a meaning; `exec_fault` is its like for traps. -/

namespace Sys2Proof.Machine

/-- The shapes of a next state. -/
inductive NextShape (i : Instr) (s : State) : State → Prop where
  /-- a transpose, a concatenation or `tl.addi`: `T[rd]` and the pc are written -/
  | tensor (rd : TReg) (A : Tensor) (n : Nat) (hi : isTensorLoad i = true) (hs : isStore i = false)
      (hz : isZicsr i = false) : NextShape i s ((s.writeT rd A).drew n).advancePc
  /-- `tl.mload`: the reads are recorded, `T[rd]` and the pc are written -/
  | load (rd : TReg) (A : Tensor) (n : Nat) (cells : List Host.Cell) (hi : isTensorLoad i = true)
      (hs : isStore i = false) (hz : isZicsr i = false) :
      NextShape i s (((s.record .read cells).writeT rd A).drew n).advancePc
  /-- `tl.mstore`: the writes are made, in the address space, and recorded -/
  | store (cells : List Host.Cell) (hc : ∀ c ∈ cells, c.1 < 2 ^ s.cfg.xlen.bits) (hi : isStore i = true)
      (ht : isTensorLoad i = true) (hz : isZicsr i = false) : NextShape i s (stored cells s).advancePc
  /-- `lui` or `addi`: `x[rd]` and the pc are written -/
  | integer (rd : XReg) (v : Word) (hi : isTensorLoad i = false) (hs : isStore i = false)
      (hz : isZicsr i = false) : NextShape i s (s.writeX rd v).advancePc
  /-- `bne`: the pc is written, with a multiple of 4 when the pc is one -/
  | branch (v : Word) (hv : s.pc.toNat % 4 = 0 → (s.cfg.xlen.wrap v).toNat % 4 = 0)
      (hi : isTensorLoad i = false) (hs : isStore i = false) (hz : isZicsr i = false) :
      NextShape i s (s.setPc v)
  /-- a Zicsr instruction: at most a CSR is read into `x[rd]` and then written -/
  | csr (c : Csr) (rd : XReg) (r w : Bool) (v : Word32) (hi : isTensorLoad i = false)
      (hs : isStore i = false) (hz : isZicsr i = true) :
      NextShape i s
        (let s1 := if r then (s.afterCsrRead c).writeX rd ((s.csrValue c).setWidth 64) else s
         (if w then s1.writeCsr c v else s1).advancePc)

theorem xposeInsn_next {a b : Dim} {rd rs1 : TReg} {rs2 : XReg} {s t : State}
    (h : xposeInsn a b rd rs1 rs2 s = .next t) : (shapeOf (s.readX32 rs2)).valid = true ∧
      t = ((s.writeT rd (Tensor.ofBytes fun k =>
        if k < (shapeOf (s.readX32 rs2)).count then xposeByte (s.readT rs1) (shapeOf (s.readX32 rs2)) a b k
        else s.unassignedByte rd k)).drew 1024).advancePc := by
  by_cases hv : (shapeOf (s.readX32 rs2)).valid = true
  · rw [xposeInsn_valid a b rd rs1 rs2 s hv] at h
    exact ⟨hv, by injection h with h; exact h.symm⟩
  · rw [xposeInsn_invalid a b rd rs1 rs2 s hv] at h; cases h

theorem execTlMload_next {rd : TReg} {rs1 rs2 : XReg} {s t : State} (h : execTlMload rd rs1 rs2 s = .next t) :
    (shapeOf (s.readX32 rs1)).valid = true ∧ t = loaded rd (shapeOf (s.readX32 rs1)) (s.readX rs2) s := by
  by_cases hv : (shapeOf (s.readX32 rs1)).valid = true
  · simp only [execTlMload, hv, if_true] at h
    split at h
    · exact ⟨hv, by injection h with h; exact h.symm⟩
    · cases h
    · cases h
  · simp [execTlMload, hv] at h

theorem execTlMstore_next {rs1 : TReg} {rs2 rd : XReg} {s t : State} (h : execTlMstore rs1 rs2 rd s = .next t) :
    (shapeOf (s.readX32 rd)).valid = true ∧ t = (stored (storeCells (s.readT rs1)
      (accessesOf s.cfg (shapeOf (s.readX32 rd)) s.storeMask (s.readX rs2))) s).advancePc := by
  by_cases hv : (shapeOf (s.readX32 rd)).valid = true
  · simp only [execTlMstore, hv, if_true] at h
    split at h
    · exact ⟨hv, by injection h with h; exact h.symm⟩
    · cases h
    · cases h
  · simp [execTlMstore, hv] at h

theorem csrInsn_next {i j : Instr} {rd : XReg} {csr : BitVec 12} {r w : Bool} {f : Word32 → Word32} {s t : State}
    (h : csrInsn j rd csr r w f s = .next t) (hi : isTensorLoad i = false) (hs : isStore i = false)
    (hz : isZicsr i = true) : NextShape i s t := by
  cases hc : Csr.ofAddress csr with
  | none => rw [csrInsn_none hc] at h; cases h
  | some c =>
    simp only [csrInsn, hc] at h
    injection h with h
    rw [← h]
    exact .csr c rd r w (f (s.csrValue c)) hi hs hz

theorem mod_four_of_low_bits {w : Word} (h : w.extractLsb' 0 2 = 0) : w.toNat % 4 = 0 := by
  have := congrArg BitVec.toNat h
  simpa [BitVec.extractLsb'_toNat] using this

theorem low_bits_of_mod_four {w : Word} (h : w.toNat % 4 = 0) : w.extractLsb' 0 2 = 0 := by
  apply BitVec.eq_of_toNat_eq
  simpa [BitVec.extractLsb'_toNat] using h

/-- The pc after the next instruction is a multiple of 4 if the pc is (R24, R53). -/
theorem wrap_pc_add_four (x : Xlen) (pc : Word) (h : pc.toNat % 4 = 0) : (x.wrap (pc + 4)).toNat % 4 = 0 := by
  rw [wrap_mod_four, BitVec.toNat_add]
  simp only [BitVec.reduceToNat]; omega

theorem execBne_next {i : Instr} {rs1 rs2 : XReg} {offset : BitVec 13} {s t : State}
    (h : execBne rs1 rs2 offset s = .next t) (hi : isTensorLoad i = false) (hs : isStore i = false)
    (hz : isZicsr i = false) : NextShape i s t := by
  unfold execBne at h
  dsimp only at h
  split at h
  · split at h
    · cases h
    · rename_i hl
      injection h with h
      rw [← h]
      refine .branch _ (fun _ => ?_) hi hs hz
      rw [wrap_mod_four]
      exact mod_four_of_low_bits (by simpa using hl)
  · injection h with h
    rw [← h]
    exact .branch _ (wrap_pc_add_four _ _) hi hs hz

theorem next_of_eq {s t : State} (h : (Host.Outcome.next s : Result) = .next t) : t = s := by
  injection h with h; exact h.symm

/-- The inversion lemma of `exec`: everything an instruction that completes can do. -/
theorem exec_next {i : Instr} {s t : State} (h : exec i s = .next t) : NextShape i s t := by
  cases i with
  | tlXpose01 rd rs1 rs2 => rw [(xposeInsn_next h).2]; exact .tensor _ _ _ rfl rfl rfl
  | tlXpose02 rd rs1 rs2 => rw [(xposeInsn_next h).2]; exact .tensor _ _ _ rfl rfl rfl
  | tlXpose03 rd rs1 rs2 => rw [(xposeInsn_next h).2]; exact .tensor _ _ _ rfl rfl rfl
  | tlXpose12 rd rs1 rs2 => rw [(xposeInsn_next h).2]; exact .tensor _ _ _ rfl rfl rfl
  | tlXpose13 rd rs1 rs2 => rw [(xposeInsn_next h).2]; exact .tensor _ _ _ rfl rfl rfl
  | tlXpose23 rd rs1 rs2 => rw [(xposeInsn_next h).2]; exact .tensor _ _ _ rfl rfl rfl
  | tlConcat0 rd rs1 rs2 => rw [next_of_eq h]; exact .tensor _ _ _ rfl rfl rfl
  | tlConcat1 rd rs1 rs2 => rw [next_of_eq h]; exact .tensor _ _ _ rfl rfl rfl
  | tlConcat2 rd rs1 rs2 => rw [next_of_eq h]; exact .tensor _ _ _ rfl rfl rfl
  | tlAddi rd rs1 imm => rw [next_of_eq h]; exact .tensor _ _ 0 rfl rfl rfl
  | tlMload rd rs1 rs2 => rw [(execTlMload_next h).2]; exact .load _ _ _ _ rfl rfl rfl
  | tlMstore rs1 rs2 rd =>
    rw [(execTlMstore_next h).2]
    refine .store _ (fun c hc => ?_) rfl rfl rfl
    obtain ⟨a, ha, rfl⟩ := List.mem_map.mp hc
    exact access_address_lt ha
  | lui rd imm20 => rw [next_of_eq h]; exact .integer _ _ rfl rfl rfl
  | addi rd rs1 imm => rw [next_of_eq h]; exact .integer _ _ rfl rfl rfl
  | bne rs1 rs2 offset => exact execBne_next h rfl rfl rfl
  | csrrw rd csr rs1 => rw [exec_csrrw] at h; exact csrInsn_next h rfl rfl rfl
  | csrrs rd csr rs1 => rw [exec_csrrs] at h; exact csrInsn_next h rfl rfl rfl
  | csrrc rd csr rs1 => rw [exec_csrrc] at h; exact csrInsn_next h rfl rfl rfl
  | csrrwi rd csr uimm => rw [exec_csrrwi] at h; exact csrInsn_next h rfl rfl rfl
  | csrrsi rd csr uimm => rw [exec_csrrsi] at h; exact csrInsn_next h rfl rfl rfl
  | csrrci rd csr uimm => rw [exec_csrrci] at h; exact csrInsn_next h rfl rfl rfl

/-- The shapes of a fault: an exception raised at the pc, in the state as it was, or in the state a faulting
`tl.mload` or `tl.mstore` leaves (R154). -/
inductive FaultShape (s : State) : Fault → Prop where
  | unchanged (e : Exception) (v : Word) : FaultShape s (raise e v s)
  | load (v : Word) (rd : TReg) (acc : List Access) :
      FaultShape s (raise .loadAccessFault v (loadFaulted rd acc s))
  | store (v : Word) (cells : List Host.Cell) :
      FaultShape s (raise .storeAccessFault v ((stored cells s).drew 1024))

theorem xposeInsn_no_fault {a b : Dim} {rd rs1 : TReg} {rs2 : XReg} {s : State} {f : Fault}
    (h : xposeInsn a b rd rs1 rs2 s = .fault f) : False := by
  by_cases hv : (shapeOf (s.readX32 rs2)).valid = true
  · rw [xposeInsn_valid a b rd rs1 rs2 s hv] at h; cases h
  · rw [xposeInsn_invalid a b rd rs1 rs2 s hv] at h; cases h

theorem csrInsn_fault {i : Instr} {rd : XReg} {csr : BitVec 12} {r w : Bool} {g : Word32 → Word32} {s : State}
    {f : Fault} (h : csrInsn i rd csr r w g s = .fault f) : FaultShape s f := by
  cases hc : Csr.ofAddress csr with
  | none =>
    rw [csrInsn_none hc] at h
    injection h with h
    rw [← h]
    exact .unchanged _ _
  | some c => simp [csrInsn, hc] at h

/-- The inversion lemma of `exec` for traps. -/
theorem exec_fault {i : Instr} {s : State} {f : Fault} (h : exec i s = .fault f) : FaultShape s f := by
  cases i with
  | tlXpose01 rd rs1 rs2 => exact (xposeInsn_no_fault h).elim
  | tlXpose02 rd rs1 rs2 => exact (xposeInsn_no_fault h).elim
  | tlXpose03 rd rs1 rs2 => exact (xposeInsn_no_fault h).elim
  | tlXpose12 rd rs1 rs2 => exact (xposeInsn_no_fault h).elim
  | tlXpose13 rd rs1 rs2 => exact (xposeInsn_no_fault h).elim
  | tlXpose23 rd rs1 rs2 => exact (xposeInsn_no_fault h).elim
  | tlConcat0 rd rs1 rs2 => cases h
  | tlConcat1 rd rs1 rs2 => cases h
  | tlConcat2 rd rs1 rs2 => cases h
  | tlAddi rd rs1 imm => cases h
  | tlMload rd rs1 rs2 =>
    simp only [exec, execTlMload] at h
    split at h
    · split at h
      · cases h
      · cases h
      · injection h with h; rw [← h]; exact .load _ _ _
    · cases h
  | tlMstore rs1 rs2 rd =>
    simp only [exec, execTlMstore] at h
    split at h
    · split at h
      · cases h
      · cases h
      · injection h with h; rw [← h]; exact .store _ _
    · cases h
  | lui rd imm20 => cases h
  | addi rd rs1 imm => cases h
  | bne rs1 rs2 offset =>
    simp only [exec, execBne] at h
    split at h
    · split at h
      · injection h with h; rw [← h]; exact .unchanged _ _
      · cases h
    · cases h
  | csrrw rd csr rs1 => rw [exec_csrrw] at h; exact csrInsn_fault h
  | csrrs rd csr rs1 => rw [exec_csrrs] at h; exact csrInsn_fault h
  | csrrc rd csr rs1 => rw [exec_csrrc] at h; exact csrInsn_fault h
  | csrrwi rd csr uimm => rw [exec_csrrwi] at h; exact csrInsn_fault h
  | csrrsi rd csr uimm => rw [exec_csrrsi] at h; exact csrInsn_fault h
  | csrrci rd csr uimm => rw [exec_csrrci] at h; exact csrInsn_fault h

end Sys2Proof.Machine
end

