-- ==== Sys2Proof/Laws/PerInstr.lean ====
section
/-! SUPPORT. One statement per instruction: its encoding matches the row of the opcode table that has its mnemonic,
every operand at every value (30_encoding.md R75, 44_base_support.md R171 to R185). -/

namespace Sys2Proof.Laws.EncodeMatchesRow

/-- The word of `i` matches a row of the table with `i`'s mnemonic. -/
def Statement (i : Instr) : Prop :=
  ∃ row ∈ opcodeTable, row.mnemonic = i.mnemonic ∧ encode i &&& row.mask = row.match'

theorem tlXpose01 (rd : BitVec 5) (rs1 : BitVec 5) (rs2 : BitVec 5) : Statement (.tlXpose01 rd rs1 rs2) :=
  ⟨⟨"tl.xpose.01", 0x6200005B, 0xFE00707F⟩, by decide, rfl, encodeR_mask _ _ _ _ _ _⟩

theorem tlXpose02 (rd : BitVec 5) (rs1 : BitVec 5) (rs2 : BitVec 5) : Statement (.tlXpose02 rd rs1 rs2) :=
  ⟨⟨"tl.xpose.02", 0x6400005B, 0xFE00707F⟩, by decide, rfl, encodeR_mask _ _ _ _ _ _⟩

theorem tlXpose03 (rd : BitVec 5) (rs1 : BitVec 5) (rs2 : BitVec 5) : Statement (.tlXpose03 rd rs1 rs2) :=
  ⟨⟨"tl.xpose.03", 0x6600005B, 0xFE00707F⟩, by decide, rfl, encodeR_mask _ _ _ _ _ _⟩

theorem tlXpose12 (rd : BitVec 5) (rs1 : BitVec 5) (rs2 : BitVec 5) : Statement (.tlXpose12 rd rs1 rs2) :=
  ⟨⟨"tl.xpose.12", 0x7200005B, 0xFE00707F⟩, by decide, rfl, encodeR_mask _ _ _ _ _ _⟩

theorem tlXpose13 (rd : BitVec 5) (rs1 : BitVec 5) (rs2 : BitVec 5) : Statement (.tlXpose13 rd rs1 rs2) :=
  ⟨⟨"tl.xpose.13", 0x7400005B, 0xFE00707F⟩, by decide, rfl, encodeR_mask _ _ _ _ _ _⟩

theorem tlXpose23 (rd : BitVec 5) (rs1 : BitVec 5) (rs2 : BitVec 5) : Statement (.tlXpose23 rd rs1 rs2) :=
  ⟨⟨"tl.xpose.23", 0x7600005B, 0xFE00707F⟩, by decide, rfl, encodeR_mask _ _ _ _ _ _⟩

theorem tlConcat0 (rd : BitVec 5) (rs1 : BitVec 5) (rs2 : BitVec 5) : Statement (.tlConcat0 rd rs1 rs2) :=
  ⟨⟨"tl.concat.0", 0x8000105B, 0xFE00707F⟩, by decide, rfl, encodeR_mask _ _ _ _ _ _⟩

theorem tlConcat1 (rd : BitVec 5) (rs1 : BitVec 5) (rs2 : BitVec 5) : Statement (.tlConcat1 rd rs1 rs2) :=
  ⟨⟨"tl.concat.1", 0x8200105B, 0xFE00707F⟩, by decide, rfl, encodeR_mask _ _ _ _ _ _⟩

theorem tlConcat2 (rd : BitVec 5) (rs1 : BitVec 5) (rs2 : BitVec 5) : Statement (.tlConcat2 rd rs1 rs2) :=
  ⟨⟨"tl.concat.2", 0x8400105B, 0xFE00707F⟩, by decide, rfl, encodeR_mask _ _ _ _ _ _⟩

theorem tlAddi (rd : BitVec 5) (rs1 : BitVec 5) (imm : BitVec 12) : Statement (.tlAddi rd rs1 imm) :=
  ⟨⟨"tl.addi", 0x0000205B, 0x0000707F⟩, by decide, rfl, encodeI_mask _ _ _ _ _⟩

theorem tlMload (rd : BitVec 5) (rs1 : BitVec 5) (rs2 : BitVec 5) : Statement (.tlMload rd rs1 rs2) :=
  ⟨⟨"tl.mload", 0xA000305B, 0xFE00707F⟩, by decide, rfl, encodeR_mask _ _ _ _ _ _⟩

theorem tlMstore (rs1 : BitVec 5) (rs2 : BitVec 5) (rd : BitVec 5) : Statement (.tlMstore rs1 rs2 rd) :=
  ⟨⟨"tl.mstore", 0xA200405B, 0xFE00707F⟩, by decide, rfl, encodeR_mask _ _ _ _ _ _⟩

theorem lui (rd : BitVec 5) (imm20 : BitVec 20) : Statement (.lui rd imm20) :=
  ⟨⟨"lui", 0x00000037, 0x0000007F⟩, by decide, rfl, encodeU_mask _ _ _⟩

theorem addi (rd : BitVec 5) (rs1 : BitVec 5) (imm : BitVec 12) : Statement (.addi rd rs1 imm) :=
  ⟨⟨"addi", 0x00000013, 0x0000707F⟩, by decide, rfl, encodeI_mask _ _ _ _ _⟩

theorem bne (rs1 : BitVec 5) (rs2 : BitVec 5) (offset : BitVec 13) : Statement (.bne rs1 rs2 offset) :=
  ⟨⟨"bne", 0x00001063, 0x0000707F⟩, by decide, rfl, encodeB_mask _ _ _ _ _⟩

theorem csrrw (rd : BitVec 5) (csr : BitVec 12) (rs1 : BitVec 5) : Statement (.csrrw rd csr rs1) :=
  ⟨⟨"csrrw", 0x00001073, 0x0000707F⟩, by decide, rfl, encodeI_mask _ _ _ _ _⟩

theorem csrrs (rd : BitVec 5) (csr : BitVec 12) (rs1 : BitVec 5) : Statement (.csrrs rd csr rs1) :=
  ⟨⟨"csrrs", 0x00002073, 0x0000707F⟩, by decide, rfl, encodeI_mask _ _ _ _ _⟩

theorem csrrc (rd : BitVec 5) (csr : BitVec 12) (rs1 : BitVec 5) : Statement (.csrrc rd csr rs1) :=
  ⟨⟨"csrrc", 0x00003073, 0x0000707F⟩, by decide, rfl, encodeI_mask _ _ _ _ _⟩

theorem csrrwi (rd : BitVec 5) (csr : BitVec 12) (uimm : BitVec 5) : Statement (.csrrwi rd csr uimm) :=
  ⟨⟨"csrrwi", 0x00005073, 0x0000707F⟩, by decide, rfl, encodeI_mask _ _ _ _ _⟩

theorem csrrsi (rd : BitVec 5) (csr : BitVec 12) (uimm : BitVec 5) : Statement (.csrrsi rd csr uimm) :=
  ⟨⟨"csrrsi", 0x00006073, 0x0000707F⟩, by decide, rfl, encodeI_mask _ _ _ _ _⟩

theorem csrrci (rd : BitVec 5) (csr : BitVec 12) (uimm : BitVec 5) : Statement (.csrrci rd csr uimm) :=
  ⟨⟨"csrrci", 0x00007073, 0x0000707F⟩, by decide, rfl, encodeI_mask _ _ _ _ _⟩

end Sys2Proof.Laws.EncodeMatchesRow
end

