-- ==== Sys2Proof/Tests/Slice0.lean ====
section
/-! SUPPORT. Tests of the model, their expected results from the spec's vectors (95_test_vectors.md) and worked
examples (44_base_support.md), and for every obligation with hypotheses a state and operands that meet them. -/

namespace Sys2Proof.Machine.Tests

set_option Elab.async false

/-! ### Helpers -/

/-- Whether a step answers a next state with a property. -/
def completes (r : Result) (p : State → Bool) : Bool :=
  match r with
  | .next t => p t
  | .fault _ => false
  | .refused _ => false

/-- Whether a step answers a fault with a property. -/
def faults (r : Result) (p : Fault → Bool) : Bool :=
  match r with
  | .next _ => false
  | .fault f => p f
  | .refused _ => false

/-- Whether a step is refused for a reason. -/
def refuses (r : Result) (why : Refusal) : Bool :=
  match r with
  | .next _ => false
  | .fault _ => false
  | .refused q => q == why

/-- A tensor with the given first bytes, the others 0. -/
def tensor (bytes : List Byte) : Tensor := Tensor.ofBytes fun k => bytes.getD k 0

/-- Bytes `0 .. n-1` of `T[r]`. -/
def front (s : State) (r : TReg) (n : Nat) : List Byte := (List.range n).map (Tensor.byte (s.readT r))

/-- Bytes of memory from `a`. -/
def bytesAt (s : State) (a n : Nat) : List Byte := (List.range n).map fun k => s.mem.read (a + k)

/-- The reset machine with a tensor in `t2` and a descriptor in `x10` (95 section 3). -/
def xposeState (d : Word) (bytes : List Byte) : State := (State.reset.writeT 2 (tensor bytes)).writeX 10 d

/-- The start of 95 section 4: `T[1][i] = 0x10 + i`, `T[2][i] = 0x80 + i`. -/
def concatState (m1 m2 : Word32) : State :=
  let s := (State.reset.writeT 1 (Tensor.ofBytes fun i => BitVec.ofNat 8 (0x10 + i))).writeT 2
    (Tensor.ofBytes fun i => BitVec.ofNat 8 (0x80 + i))
  { s with mask1 := m1, mask2 := m2 }

/-- The start of 95 section 6, with the masks, the layout and the regions given. -/
def memState (layout : MemLayout) (mask : Word32) (regions : List Region) : State :=
  let c := { Config.default with memLayout := layout, mem := regions }
  let s := (((State.resetWith c).writeX 10 0x01010204).writeX 11 0x1000).writeX 14 0x2000
  let s := s.writeT 3 (tensor [0x11, 0x22, 0x33, 0x44, 0x55, 0x66, 0x77, 0x88])
  { s with
    loadMask := mask
    storeMask := mask
    mem := [(0x1000, 0x11), (0x1001, 0x22), (0x1002, 0x33), (0x1003, 0x44), (0x1004, 0x55), (0x1005, 0x66),
      (0x1006, 0x77), (0x1007, 0x88), (0x2000, 0xEE), (0x2001, 0xEE), (0x2002, 0xEE), (0x2003, 0xEE),
      (0x2004, 0xEE), (0x2005, 0xEE), (0x2006, 0xEE), (0x2007, 0xEE)] }

/-- One idempotent region of readable and writable memory, without execution. -/
def dataRegion (base size : Nat) : Region :=
  { base := base, size := size, readable := true, writable := true, executable := false, idempotent := true }

/-- A machine on RV64. -/
def rv64 : State := State.resetWith { Config.default with xlen := .rv64 }

/-- The reset machine with a word at the pc. -/
def at' (w : Nat) : State := State.reset.withFetchWord 32 w

/-! ### Well-formed terms (R170, R173) -/

theorem test_bne_odd_offset_is_ill_formed : (Instr.bne 5 0 3).wellFormed = false := by decide
theorem test_bne_even_offset_is_well_formed : (Instr.bne 5 0 (-8)).wellFormed = true := by decide
/-- No word encodes the ill-formed term: its encoding decodes to another instruction. -/
theorem test_bne_odd_offset_has_no_word : decodeWord (encode (.bne 5 0 3)) = .ok (.bne 5 0 2) := by decide

/-! ### Decoding: the words of 95 section 2 and of 44 -/

theorem test_decode_tlXpose01 : decodeTableWord 32 0x62A100DB = some (.tlXpose01 1 2 10) := by decide
theorem test_decode_tlXpose02 : decodeTableWord 32 0x64A100DB = some (.tlXpose02 1 2 10) := by decide
theorem test_decode_tlXpose03 : decodeTableWord 32 0x66A100DB = some (.tlXpose03 1 2 10) := by decide
theorem test_decode_tlXpose12 : decodeTableWord 32 0x72A100DB = some (.tlXpose12 1 2 10) := by decide
theorem test_decode_tlXpose13 : decodeTableWord 32 0x74A100DB = some (.tlXpose13 1 2 10) := by decide
theorem test_decode_tlXpose23 : decodeTableWord 32 0x77F00FDB = some (.tlXpose23 31 0 31) := by decide
theorem test_decode_tlConcat0 : decodeTableWord 32 0x80C5955B = some (.tlConcat0 10 11 12) := by decide
theorem test_decode_tlConcat1 : decodeTableWord 32 0x82C5955B = some (.tlConcat1 10 11 12) := by decide
theorem test_decode_tlConcat2 : decodeTableWord 32 0x84C5955B = some (.tlConcat2 10 11 12) := by decide
theorem test_decode_tlAddi : decodeTableWord 32 0x8002A2DB = some (.tlAddi 5 5 (-2048)) := by decide
theorem test_decode_tlMload : decodeTableWord 32 0xA0B530DB = some (.tlMload 1 10 11) := by decide
theorem test_decode_tlMstore : decodeTableWord 32 0xA2E1455B = some (.tlMstore 2 14 10) := by decide
theorem test_decode_lui : decodeTableWord 32 0x02081537 = some (.lui 10 0x2081) := by decide
theorem test_decode_addi : decodeTableWord 32 0x00850513 = some (.addi 10 10 8) := by decide
theorem test_decode_bne : decodeTableWord 32 0xFE029CE3 = some (.bne 5 0 (-8)) := by decide
theorem test_decode_csrrw : decodeTableWord 32 0x810A1073 = some (.csrrw 0 0x810 20) := by decide
theorem test_decode_csrrs : decodeTableWord 32 0x81002373 = some (.csrrs 6 0x810 0) := by decide
theorem test_decode_csrrc : decodeTableWord 32 0x811332F3 = some (.csrrc 5 0x811 6) := by decide
theorem test_decode_csrrwi : decodeTableWord 32 0x81065073 = some (.csrrwi 0 0x810 12) := by decide
theorem test_decode_csrrsi : decodeTableWord 32 0x8100E073 = some (.csrrsi 0 0x810 1) := by decide
theorem test_decode_csrrci : decodeTableWord 32 0x81027073 = some (.csrrci 0 0x810 4) := by decide

/-! ### Decoding: words written out field by field from the formats (R71, R72, R170) -/

/-- funct7, rs2, rs1, funct3, rd, opcode (R71, R75). -/
theorem test_bits_xpose :
    decodeWord (0b0110011#7 ++ 0b01010#5 ++ 0b00010#5 ++ 0b000#3 ++ 0b00001#5 ++ 0b1011011#7) =
      .ok (.tlXpose03 1 2 10) := by decide
theorem test_bits_concat :
    decodeWord (0b1000001#7 ++ 0b01100#5 ++ 0b01011#5 ++ 0b001#3 ++ 0b01010#5 ++ 0b1011011#7) =
      .ok (.tlConcat1 10 11 12) := by decide
/-- imm[11:0], rs1, funct3, rd, opcode (R72, R75). -/
theorem test_bits_addi_tensor :
    decodeWord (0b111111111111#12 ++ 0b00110#5 ++ 0b010#3 ++ 0b00101#5 ++ 0b1011011#7) =
      .ok (.tlAddi 5 6 (-1)) := by decide
theorem test_bits_mload :
    decodeWord (0b1010000#7 ++ 0b01011#5 ++ 0b01010#5 ++ 0b011#3 ++ 0b00001#5 ++ 0b1011011#7) =
      .ok (.tlMload 1 10 11) := by decide
/-- imm[12], imm[10:5], rs2, rs1, funct3, imm[4:1], imm[11], opcode of the offset -8 (R170). -/
theorem test_bits_bne :
    decodeWord (0b1#1 ++ 0b111111#6 ++ 0b00000#5 ++ 0b00101#5 ++ 0b001#3 ++ 0b1100#4 ++ 0b1#1 ++ 0b1100011#7) =
      .ok (.bne 5 0 (-8)) := by decide
/-- Offset 0x800: only imm[11], which is bit 7 of the word (R170). -/
theorem test_bits_bne_bit_eleven :
    decodeWord (0b0#1 ++ 0b000000#6 ++ 0b00000#5 ++ 0b00101#5 ++ 0b001#3 ++ 0b0000#4 ++ 0b1#1 ++ 0b1100011#7) =
      .ok (.bne 5 0 0x800) := by decide
/-- csr, rs1, funct3, rd, opcode (R170, R182). -/
theorem test_bits_csr :
    decodeWord (0b100000010001#12 ++ 0b00110#5 ++ 0b011#3 ++ 0b00101#5 ++ 0b1110011#7) =
      .ok (.csrrc 5 0x811 6) := by decide

/-- The reserved words of 95 section 2, and the words it lists outside the CUSTOM-2 space. -/
theorem test_reserved_words :
    [0x6EA100DB, 0x7AA100DB, 0x60A100DB, 0x6AA100DB, 0x0000005B, 0x80C5855B, 0x62A110DB, 0x86C5955B, 0xA2B530DB,
        0x00B530DB, 0xA0E1455B, 0x0000505B, 0x0000605B, 0xFFFFFFDB].map decodeWord =
      List.replicate 14 (.reject .reservedCustom2) ∧
    [0x00000000, 0xFFFFFFFF, 0x0000006F, 0x00052503, 0x00004073].map decodeWord =
      List.replicate 5 (.reject .noTableRow) := by decide

/-- Fewer than four bytes are no instruction. -/
theorem test_truncated : decode [0xDB, 0x00, 0xA1] = .reject .truncated := by decide

/-! ### Transposes (95 section 3) -/

theorem test_tlXpose01 :
    completes (exec (.tlXpose01 1 2 10) (xposeState 0x01010302 [10, 11, 12, 20, 21, 22]))
      (fun t => front t 1 6 == [10, 20, 11, 21, 12, 22] && t.pc == 4) = true := by decide +kernel
theorem test_tlXpose02 :
    completes (exec (.tlXpose02 1 2 10) (xposeState 0x01030201 [1, 2, 3, 4, 5, 6]))
      (fun t => front t 1 6 == [1, 4, 2, 5, 3, 6]) = true := by decide +kernel
theorem test_tlXpose03 :
    completes (exec (.tlXpose03 1 2 10) (xposeState 0x02010102 [1, 2, 3, 4]))
      (fun t => front t 1 4 == [1, 3, 2, 4]) = true := by decide +kernel
theorem test_tlXpose12 :
    completes (exec (.tlXpose12 1 2 10) (xposeState 0x01030201 [10, 11, 12, 20, 21, 22]))
      (fun t => front t 1 6 == [10, 20, 11, 21, 12, 22]) = true := by decide +kernel
theorem test_tlXpose13 :
    completes (exec (.tlXpose13 1 2 10) (xposeState 0x02010201 [1, 2, 3, 4]))
      (fun t => front t 1 4 == [1, 3, 2, 4]) = true := by decide +kernel
theorem test_tlXpose23 :
    completes (exec (.tlXpose23 1 2 10) (xposeState 0x03020101 [10, 11, 12, 20, 21, 22]))
      (fun t => front t 1 6 == [10, 20, 11, 21, 12, 22]) = true := by decide +kernel

/-- The full register `[4,4,8,8]` with `T[2][k] = k mod 256`, at indices 64, 257, 511 and 1000 (95 section 3's table). -/
theorem test_transposes_of_a_full_register :
    (let s := (State.reset.writeT 2 (Tensor.ofBytes fun k => BitVec.ofNat 8 k)).writeX 10 0x08080404
     let p := fun (l : List Byte) (t : State) => [64, 257, 511, 1000].map (Tensor.byte (t.readT 1)) == l
     completes (exec (.tlXpose01 1 2 10) s) (p [0, 65, 127, 232]) &&
     completes (exec (.tlXpose02 1 2 10) s) (p [128, 17, 223, 248]) &&
     completes (exec (.tlXpose03 1 2 10) s) (p [128, 2, 251, 215]) &&
     completes (exec (.tlXpose12 1 2 10) s) (p [16, 1, 255, 120]) &&
     completes (exec (.tlXpose13 1 2 10) s) (p [2, 64, 255, 23]) &&
     completes (exec (.tlXpose23 1 2 10) s) (p [64, 8, 255, 197])) = true := by decide +kernel

/-- In place: the source is read whole before the destination is written (R103). -/
theorem test_transpose_in_place :
    completes (exec (.tlXpose01 2 2 10) (xposeState 0x01010302 [10, 11, 12, 20, 21, 22]))
      (fun t => front t 2 6 == [10, 20, 11, 21, 12, 22]) = true := by decide +kernel

/-- Descriptors too large, with a zero extent, and in `x0` (R102). -/
theorem test_transpose_refused :
    refuses (exec (.tlXpose01 1 2 10) (xposeState 0x01012021 [])) (.invalidDescriptor 0x01012021) = true ∧
    refuses (exec (.tlXpose23 1 2 10) (xposeState 0x01010100 [])) (.invalidDescriptor 0x01010100) = true ∧
    refuses (exec (.tlXpose01 1 2 0) (xposeState 0x01010302 [])) (.invalidDescriptor 0) = true := by
  decide +kernel

/-- On RV64 bits 63:32 of the descriptor register are ignored (R18, D7). -/
theorem test_transpose_rv64_descriptor :
    completes (exec (.tlXpose03 1 2 10) ((rv64.writeX 10 0xFFFFFFFF81010101).writeT 2 (tensor [7, 8, 9])))
      (fun t => front t 1 3 == [7, 8, 9]) = true := by decide +kernel

/-- Under `unchanged` the bytes past the tensor keep their old values (R16, D9). -/
theorem test_unassigned_unchanged :
    (let c := { Config.default with unassigned := .unchanged }
     let s := ((State.resetWith c).writeX 10 0x01010302).writeT 1 (tensor [1, 1, 1, 1, 1, 1, 99, 98])
     completes (exec (.tlXpose01 1 2 10) s) (fun t => front t 1 8 == [0, 0, 0, 0, 0, 0, 99, 98])) = true := by
  decide +kernel

/-! ### Concatenations (95 section 4) -/

theorem test_tlConcat0 :
    completes (exec (.tlConcat0 3 1 2) (concatState 0x80000001 0x80000001))
      (fun t => front t 3 4 == [0x10, 0x2F, 0x80, 0x9F] && t.pc == 4) = true := by decide +kernel
theorem test_tlConcat1 :
    completes (exec (.tlConcat1 3 1 2) (concatState 0x5 0xA))
      (fun t => front t 3 4 == [0x10, 0x12, 0x81, 0x83]) = true := by decide +kernel
/-- The document's masks of A.2. -/
theorem test_tlConcat2 :
    completes (exec (.tlConcat2 3 1 2) (concatState 0xC 0x3))
      (fun t => front t 3 4 == [0x12, 0x13, 0x80, 0x81]) = true := by decide +kernel
/-- One register as both sources and destination, the masks exchanged (R121, D24). -/
theorem test_concat_in_place :
    completes (exec (.tlConcat0 1 1 1)
      { State.reset.writeT 1 (tensor [5, 6, 7, 8]) with mask1 := 0xC, mask2 := 0x3 })
      (fun t => front t 1 4 == [7, 8, 5, 6]) = true := by decide +kernel

/-! ### `tl.addi` (95 section 5) -/

theorem test_saturation_table :
    [saturatingAdd 255 1, saturatingAdd 0 (-1), saturatingAdd 255 (-1), saturatingAdd 128 127, saturatingAdd 128 128,
      saturatingAdd 128 (-129), saturatingAdd 0 254, saturatingAdd 255 2047, saturatingAdd 255 (-254),
      saturatingAdd 255 (-2048)] = [255, 0, 254, 255, 255, 0, 254, 255, 1, 0] := by decide
/-- R143's worked example, and the last lane. -/
theorem test_tlAddi :
    completes (exec (.tlAddi 5 6 100) (State.reset.writeT 6 (tensor [0, 1, 100, 155, 156, 255])))
      (fun t => front t 5 6 == [100, 101, 200, 255, 255, 255] && Tensor.byte (t.readT 5) 1023 == 100 && t.pc == 4)
      = true := by decide +kernel

/-! ### `tl.mload` and `tl.mstore` (95 section 6) -/

theorem test_mload_inplace :
    completes (exec (.tlMload 3 10 11) (memState .inplace 0xA [Region.everything]))
      (fun t => [2, 3, 6, 7].map (Tensor.byte (t.readT 3)) == [0x33, 0x44, 0x77, 0x88] &&
        t.events == [⟨0, .read,
          [(0x1002, 0x33), (0x1003, 0x44), (0x1006, 0x77), (0x1007, 0x88)]⟩]) = true := by
  decide +kernel
theorem test_mload_packed :
    completes (exec (.tlMload 3 10 11) (memState .packed 0xA [Region.everything]))
      (fun t => [2, 3, 6, 7].map (Tensor.byte (t.readT 3)) == [0x11, 0x22, 0x33, 0x44] &&
        t.events == [⟨0, .read,
          [(0x1000, 0x11), (0x1001, 0x22), (0x1002, 0x33), (0x1003, 0x44)]⟩]) = true := by
  decide +kernel
theorem test_mstore_inplace :
    completes (exec (.tlMstore 3 14 10) (memState .inplace 0xA [Region.everything]))
      (fun t => bytesAt t 0x2000 8 == [0xEE, 0xEE, 0x33, 0x44, 0xEE, 0xEE, 0x77, 0x88] &&
        t.readX 10 == 0x01010204 && t.pc == 4) = true := by decide +kernel
theorem test_mstore_packed :
    completes (exec (.tlMstore 3 14 10) (memState .packed 0xA [Region.everything]))
      (fun t => bytesAt t 0x2000 8 == [0x33, 0x44, 0x77, 0x88, 0xEE, 0xEE, 0xEE, 0xEE]) = true := by
  decide +kernel

/-- Addresses wrap modulo `2^32` on RV32 (R58). -/
theorem test_mload_wraps :
    (let s := (State.reset.writeX 10 0x01010104).writeX 11 0xFFFFFFFE
     completes (exec (.tlMload 1 10 11) { s with loadMask := 0xF, mem := [(0, 7), (1, 8), (0xFFFFFFFF, 6)] })
       (fun t => front t 1 4 == [0, 6, 7, 8])) = true := by decide +kernel

/-- A mask without a slice, and a mask of 0, store nothing and access nothing (R151). -/
theorem test_mstore_without_slice :
    completes (exec (.tlMstore 3 14 10) (memState .inplace 0x10 []))
      (fun t => bytesAt t 0x2000 8 == [0xEE, 0xEE, 0xEE, 0xEE, 0xEE, 0xEE, 0xEE, 0xEE]) = true := by
  decide +kernel

/-- A store into one byte the platform does not admit, and one into program text (R154, R65). -/
theorem test_mstore_stops :
    faults (exec (.tlMstore 3 14 10) (memState .inplace 0xF [dataRegion 0x2000 7]))
      (fun f => match f with
        | .storeAccessFault trap => trap.code == 7 && trap.pc == 0
        | _ => false) = true ∧
    refuses (exec (.tlMstore 3 14 10)
      (let s := memState .inplace 0x8 [Region.everything]
       { s with cfg := { s.cfg with text := [{ base := 0x2007, size := 4 }] } }))
      (.storeIntoProgramText 0x2007) = true := by decide +kernel

/-- A program of two words at the top of the address space runs on at address 0, and a store there is one into its text
(R65, R58). -/
theorem test_mstore_into_wrapped_text :
    refuses (exec (.tlMstore 3 14 10)
      { ({ (State.reset.writeX 10 0x01010101).writeX 14 2 with pc := 0xFFFFFFFC }.loadProgram [0, 0]) with storeMask := 1 })
      (.storeIntoProgramText 2) = true := by decide +kernel
/-- A store over its own word, of a word placed at the pc and of one that nothing marked (R65). -/
theorem test_mstore_over_its_own_word :
    refuses (step ({ (State.reset.writeX 10 0x01010101).writeX 14 3 with storeMask := 1 }.withFetchWord 32 0xA2E1C55B))
      (.storeIntoProgramText 3) = true ∧
    refuses (exec (.tlMstore 3 14 10) { (State.reset.writeX 10 0x01010101).writeX 14 3 with storeMask := 1 })
      (.storeIntoProgramText 3) = true := by decide +kernel

/-! ### Base and Zicsr (44_base_support.md, 95 section 7) -/

theorem test_lui :
    completes (exec (.lui 10 0x2081) State.reset) (fun t => t.readX 10 == 0x02081000 && t.pc == 4) = true := by
  decide
/-- On RV64 the 32-bit value is sign-extended (R171). -/
theorem test_lui_rv64 :
    completes (exec (.lui 10 0x81010) rv64) (fun t => t.readX 10 == 0xFFFFFFFF81010000) = true := by decide
theorem test_addi :
    completes (exec (.addi 10 10 8) (State.reset.writeX 10 0x02081000)) (fun t => t.readX 10 == 0x02081008) = true := by
  decide
/-- Wrap-around modulo `2^32`, and the discarded write to `x0` (R172). -/
theorem test_addi_wraps :
    completes (exec (.addi 5 10 8) (State.reset.writeX 10 0xFFFFFFFF)) (fun t => t.readX 5 == 7) = true ∧
    completes (exec (.addi 0 10 8) (State.reset.writeX 10 1)) (fun t => t.readX 0 == 0) = true := by decide
/-- R173's worked example, both ways. -/
theorem test_bne :
    completes (exec (.bne 5 0 (-8)) { State.reset.writeX 5 2 with pc := 0x108 }) (fun t => t.pc == 0x100) = true ∧
    completes (exec (.bne 5 0 (-8)) { State.reset with pc := 0x108 }) (fun t => t.pc == 0x10C) = true := by decide
/-- `bne x5, x0, +6` at `0x20` (95 section 8). -/
theorem test_bne_misaligned :
    faults (exec (.bne 5 0 6) { State.reset.writeX 5 1 with pc := 0x20 })
      (fun f => match f with
        | .instructionAddressMisaligned trap => trap.code == 0 && trap.pc == 0x20 && trap.value == 0x26
        | _ => false) = true := by decide

theorem test_csrrw :
    completes (exec (.csrrw 5 0x800 6) { State.reset.writeX 6 0x02081008 with tensorShape := 7 })
      (fun t => t.readX 5 == 7 && t.tensorShape == 0x02081008 && t.pc == 4) = true := by decide
/-- On RV64 a write keeps bits 31:0 (R31). -/
theorem test_csrrw_rv64 :
    completes (exec (.csrrw 0 0x810 20) (rv64.writeX 20 0xFFFFFFFF00000001)) (fun t => t.mask1 == 1) = true := by
  decide
/-- A read zero-extends (R31), and `rs1 = x0` writes nothing. -/
theorem test_csrrs :
    completes (exec (.csrrs 6 0x812 0) { rv64 with loadMask := 0x80000000 })
      (fun t => t.readX 6 == 0x80000000 && t.loadMask == 0x80000000) = true := by decide
theorem test_csrrc :
    completes (exec (.csrrc 5 0x811 6) { State.reset.writeX 6 0xC with mask2 := 0xF })
      (fun t => t.readX 5 == 0xF && t.mask2 == 0x3) = true := by decide
theorem test_csrrwi :
    completes (exec (.csrrwi 0 0x810 12) State.reset) (fun t => t.mask1 == 0xC && t.readX 0 == 0) = true := by decide
theorem test_csrrsi :
    completes (exec (.csrrsi 0 0x810 1) { State.reset with mask1 := 0xC }) (fun t => t.mask1 == 0xD) = true := by decide
theorem test_csrrci :
    completes (exec (.csrrci 0 0x810 4) { State.reset with mask1 := 0xD }) (fun t => t.mask1 == 0x9) = true := by decide
/-- `rd = rs1`: the new value is taken before the old one is written to the register (R180). -/
theorem test_csrrw_same_register :
    completes (exec (.csrrw 5 0x813 5) { State.reset.writeX 5 3 with storeMask := 9 })
      (fun t => t.readX 5 == 9 && t.storeMask == 3) = true := by decide
/-- The same for the set form, by the model's choice (assumption log 43). -/
theorem test_csrrs_same_register :
    completes (exec (.csrrs 5 0x813 5) { State.reset.writeX 5 3 with storeMask := 9 })
      (fun t => t.readX 5 == 9 && t.storeMask == 11) = true := by decide
/-- An unimplemented CSR raises with the instruction's word (R41, R201): `csrrw x0, 0x814, x5`. -/
theorem test_csr_unimplemented :
    faults (exec (.csrrw 0 0x814 5) State.reset)
      (fun f => match f with
        | .illegalInstruction trap => trap.code == 2 && trap.value == 0x81429073
        | _ => false) = true := by decide

/-! ### Steps -/

/-- The first instruction after reset, placed where the step fetches. -/
theorem test_first_step : completes (step (at' 0x00C00A13)) (fun t => t.readX 20 == 12 && t.pc == 4) = true := by decide
/-- 95 section 8: the word 0x86C5955B at `pc = 0x40`. -/
theorem test_step_reserved :
    faults (step ({ State.reset with pc := 0x40 }.withFetchWord 32 0x86C5955B))
      (fun f => match f with
        | .illegalInstruction trap => trap.code == 2 && trap.pc == 0x40 && trap.value == 0x86C5955B
        | _ => false) = true := by decide
/-- A program of one `addi` loaded at reset runs it and ends at `HALT_PC` (R238). -/
theorem test_program_ends :
    (match core.run 3 (State.reset.loadProgram [0x00C00A13]) with
      | .next t => t.readX 20 == 12 && t.pc == 4
      | .fault _ => false
      | .refused _ => false) = true := by decide

/-! ### Witnesses: for each obligation with hypotheses, a state and operands that meet all of them -/

theorem next_of_completes {r : Result} {p : State → Bool} (h : completes r p = true) : ∃ t, r = .next t ∧ p t = true := by
  cases r with
  | next t => exact ⟨t, rfl, h⟩
  | fault f => cases h
  | refused q => cases h

theorem fault_of_faults {r : Result} {p : Fault → Bool} (h : faults r p = true) : ∃ f, r = .fault f ∧ p f = true := by
  cases r with
  | next t => cases h
  | fault f => exact ⟨f, rfl, h⟩
  | refused q => cases h

/-- An instruction completes from a state. -/
def Completes (i : Instr) (s : State) : Prop := ∃ t, exec i s = .next t

theorem completes_of {i : Instr} {s : State} (h : completes (exec i s) (fun _ => true) = true) : Completes i s :=
  (next_of_completes h).imp fun _ h => h.1

/-- A selected address of a valid shape is the address of an access, so that a bound over all of them is a bound
over a list. -/
theorem forall_selected {c : Config} {D : Four} {m : Word32} {base : Word} {P : Nat → Prop} (hv : D.valid = true)
    (h : ∀ a ∈ accessesOf c D m base, P a.address) : ∀ x, SelectedAddress c D m base x → P x := by
  intro x hx
  obtain ⟨a, ha, rfl⟩ := (selectedAddress_iff c m base (sliceSize_pos hv) x).mp hx
  exact h a ha

/-! #### Encoding -/

theorem witness_OpcodeTableDecidesEveryWord :
    (⟨"lui", 0x00000037, 0x0000007F⟩ : OpcodeRow) ∈ opcodeTable ∧
    opcodeOf 0x86C5955B = 0b1011011 ∧ (∀ row ∈ tensorRows, (0x86C5955B : Word32) &&& row.mask ≠ row.match') := by
  decide
theorem witness_DecodeOfEncodeIsTheInstruction :
    (Instr.bne 31 31 (-4096)).wellFormed = true ∧ (Instr.tlMstore 31 0 31).wellFormed = true := by decide
theorem witness_EncodeOfDecodeIsTheWord : decodeWord 0xA0A5325B = .ok (.tlMload 4 10 10) := by decide

/-! #### Steps -/

theorem witness_StepRunsTheDecodedInstruction :
    Fetchable (at' 0x00C00A13) ∧
    (at' 0x00C00A13).cfg.decode (at' 0x00C00A13).fetchBytes = .ok (.addi 20 0 12) :=
  ⟨⟨by decide, by decide, by decide⟩, by decide⟩
theorem witness_ReservedWordRaisesIllegalInstruction :
    Fetchable (at' 0x6EA100DB) ∧ opcodeOf (at' 0x6EA100DB).fetchWord = 0b1011011 ∧
    (∀ row ∈ tensorRows, (at' 0x6EA100DB).fetchWord &&& row.mask ≠ row.match') :=
  ⟨⟨by decide, by decide, by decide⟩, by decide, by decide⟩
theorem witness_WordOfNoRowRaisesIllegalInstruction :
    Fetchable State.reset ∧ (∀ row ∈ opcodeTable, State.reset.fetchWord &&& row.mask ≠ row.match') :=
  ⟨⟨by decide, by decide, by decide⟩, by decide⟩

/-- A hart without `Ztlx`, a transpose at its pc. -/
def withoutZtlx : State :=
  (State.resetWith { Config.default with
    subext := { ztlx := false, ztlc := true, ztla := true, ztlm := true } }).withFetchWord 32 0x62A100DB

theorem witness_AbsentSubextensionRaisesIllegalInstruction :
    Fetchable withoutZtlx ∧ decode withoutZtlx.fetchBytes = .ok (.tlXpose01 1 2 10) ∧
    withoutZtlx.cfg.subext.implements (.tlXpose01 1 2 10) = false :=
  ⟨⟨by decide, by decide, by decide⟩, by decide, by decide⟩

/-- Memory whose first three bytes only can be executed. -/
def threeBytes : State :=
  State.resetWith { Config.default with
    mem := [{ base := 0, size := 3, readable := true, writable := true, executable := true, idempotent := true }] }

theorem witness_UnadmittedFetchRaisesAccessFault :
    (threeBytes.atHalt = false ∧ threeBytes.pcAligned = true ∧
      ∃ k, k < 4 ∧ admitsFetch threeBytes.cfg (threeBytes.fetchAddress k) = false) ∧
    State.reset.cfg.mem = Config.default.mem :=
  ⟨⟨by decide, by decide, 3, by decide, by decide⟩, rfl⟩
theorem witness_MisalignedPcRaisesMisaligned :
    ({ State.reset with pc := 2 }).atHalt = false ∧ ({ State.reset with pc := 2 }).readPc.toNat % 4 ≠ 0 := by decide
theorem witness_RunEndsAtHaltPc :
    (State.reset.loadProgram []).cfg.haltPc = some 0 ∧
    (State.reset.loadProgram []).readPc = (State.reset.loadProgram []).cfg.xlen.wrap 0 := by decide
theorem witness_PlacedWordRuns :
    Memory.wf State.reset.mem = true ∧ State.reset.pcAligned = true ∧
    State.reset.fetchAdmitted = true ∧ decodeTableWord 32 0x00C00A13 = some (.addi 20 0 12) ∧
    State.reset.cfg.subext.implements (.addi 20 0 12) = true := by decide

/-- Each of the five exceptions is raised by some step. -/
theorem witness_TrapsArePrecise :
    (∃ t, step { State.reset with pc := 2 } = .fault (.instructionAddressMisaligned t)) ∧
    (∃ t, step threeBytes = .fault (.instructionAccessFault t)) ∧
    (∃ t, step State.reset = .fault (.illegalInstruction t)) ∧
    (∃ f, step ({ (memState .inplace 0xF [dataRegion 0x1000 7,
        { base := 0, size := 4, readable := false, writable := false, executable := true, idempotent := true }])
          with mem := [] }.withFetchWord 32 0xA0B531DB) = .fault f ∧
      (match f with | .loadAccessFault _ => true | _ => false) = true) ∧
    (∃ f, step ({ (memState .inplace 0xF [dataRegion 0x2000 7,
        { base := 0, size := 4, readable := false, writable := false, executable := true, idempotent := true }])
          with mem := [] }.withFetchWord 32 0xA2E1C55B) = .fault f ∧
      (match f with | .storeAccessFault _ => true | _ => false) = true) :=
  ⟨⟨_, rfl⟩, ⟨_, rfl⟩, ⟨_, rfl⟩, fault_of_faults (by decide +kernel), fault_of_faults (by decide +kernel)⟩

/-! #### Reset and the invariant -/

/-- Another sane machine than the default: RV64, `RESET_PC` high. -/
theorem witness_InvariantAtReset :
    saneConfig { Config.default with xlen := .rv64, resetPc := 0xFFFFFFFF80000000 } := ⟨by decide, by decide⟩

/-- A state no reset leaves: a register set, an instruction in memory. -/
def busy : State := (State.reset.writeX 5 0xFFFFFFFF).withFetchWord 32 0x00C00A13

theorem witness_InvariantIsKept : busy.Inv ∧ ∃ t, step busy = .next t :=
  ⟨{ mem_wf := by decide
     mem_in_space := by decide
     pc_width := by decide
     pc_aligned := by decide
     x_width := by decide
     x0_zero := by decide
     events_sets := fun e he => by cases he },
   (next_of_completes (p := fun _ => true) (by decide +kernel)).imp fun _ h => h.1⟩
theorem witness_ParametersNeverChange : ∃ t, step busy = .next t := witness_InvariantIsKept.2

/-! #### Rules over all instructions -/

theorem witness_TensorLoadInstructionsAdvancePc :
    isTensorLoad (.tlAddi 1 1 0) = true ∧ Completes (.tlAddi 1 1 0) State.reset ∧
    ∃ f, exec (.tlMload 3 10 11) (memState .inplace 0xF [dataRegion 0x1000 7]) = .fault f :=
  ⟨rfl, ⟨_, rfl⟩, (fault_of_faults (p := fun _ => true) (by decide +kernel)).imp fun _ h => h.1⟩
theorem witness_TensorLoadInstructionsKeepIntegerRegisters :
    isTensorLoad (.tlMstore 3 14 10) = true ∧ Completes (.tlMstore 3 14 10) (memState .packed 0xA [Region.everything]) :=
  ⟨rfl, completes_of (by decide +kernel)⟩
theorem witness_OtherInstructionsKeepTensorRegisters :
    isTensorLoad (.lui 10 1) = false ∧ Completes (.lui 10 1) State.reset ∧
    isStore (.tlMstore 3 14 10) = true ∧ Completes (.tlMstore 3 14 10) (memState .inplace 0xF [Region.everything]) :=
  ⟨rfl, ⟨_, rfl⟩, rfl, completes_of (by decide +kernel)⟩
theorem witness_OnlyMstoreChangesMemory :
    isStore (.tlMload 3 10 11) = false ∧ Completes (.tlMload 3 10 11) (memState .inplace 0xF [Region.everything]) :=
  ⟨rfl, completes_of (by decide +kernel)⟩
theorem witness_OnlyZicsrChangesCsrs :
    isZicsr (.tlXpose01 1 2 10) = false ∧ Completes (.tlXpose01 1 2 10) (xposeState 0x01010302 []) :=
  ⟨rfl, completes_of (by decide +kernel)⟩
theorem witness_ShapeAndConfigCsrsAreInert :
    isTensorLoad (.tlXpose13 1 2 10) = true ∧ Completes (.tlXpose13 1 2 10) (xposeState 0x02010201 []) :=
  ⟨rfl, completes_of (by decide +kernel)⟩

/-! #### Transposes -/

/-- Valid descriptors, the smallest shape, 1020 and 1024 elements, and an invalid one: the two clauses of `Xpose01SwapsDimensions`,
`Xpose02SwapsDimensions`, `Xpose03SwapsDimensions`, `Xpose12SwapsDimensions`, `Xpose13SwapsDimensions` and
`Xpose23SwapsDimensions`. -/
theorem witness_XposeSwapsDimensions :
    (shapeOf ((xposeState 0x01010101 []).readX32 10)).valid = true ∧
    (shapeOf ((xposeState 0x010104FF []).readX32 10)).valid = true ∧
    (shapeOf ((xposeState 0x08080404 []).readX32 10)).valid = true ∧
    (shapeOf ((xposeState 0x01011929 []).readX32 10)).valid = false := by decide
/-- Each extent 0 in turn, 1056 and 1025 elements. -/
theorem witness_TransposeOfInvalidDescriptorIsRefused :
    (shapeOf ((xposeState 0x01010100 []).readX32 10)).d0 = 0 ∧
    (shapeOf ((xposeState 0x01010001 []).readX32 10)).d1 = 0 ∧
    (shapeOf ((xposeState 0x01000101 []).readX32 10)).d2 = 0 ∧
    (shapeOf ((xposeState 0x00010101 []).readX32 10)).d3 = 0 ∧
    1024 < (shapeOf ((xposeState 0x01012021 []).readX32 10)).count ∧
    (shapeOf ((xposeState 0x01011929 []).readX32 10)).count = 1025 := by decide
/-- `[2,3,1,1]` and back by `[3,2,1,1]` (95 section 3's involution). -/
theorem witness_TransposeTwiceIsTheSource :
    ∃ t, exec (.tlXpose01 1 2 10) ((xposeState 0x01010302 []).writeX 13 0x01010203) = .next t ∧
      (completes (exec (.tlXpose01 4 1 13) t) (fun _ => true) &&
        shapeOf (t.readX32 13) == (shapeOf ((xposeState 0x01010302 []).readX32 10)).swap .dim0 .dim1) = true :=
  next_of_completes (by decide +kernel)
theorem witness_TransposePermutesTheBytes : Completes (.tlXpose02 1 2 10) (xposeState 0x01030201 []) :=
  completes_of (by decide +kernel)

/-- Both swapped extents 1 with dimensions between; one of them 1 and the dimension between 1. -/
theorem witness_TransposeOfUnitExtentsKeepsTheBytes :
    Completes (.tlXpose03 1 2 10) (xposeState 0x01030201 []) ∧
    (shapeOf ((xposeState 0x01030201 []).readX32 10)).get .dim0 = 1 ∧
    (shapeOf ((xposeState 0x01030201 []).readX32 10)).get .dim3 = 1 ∧
    Completes (.tlXpose02 1 2 10) (xposeState 0x02030101 []) ∧
    (shapeOf ((xposeState 0x02030101 []).readX32 10)).get .dim0 = 1 ∧
    (shapeOf ((xposeState 0x02030101 []).readX32 10)).get .dim1 = 1 :=
  ⟨completes_of (by decide +kernel), by decide, by decide, completes_of (by decide +kernel), by decide, by decide⟩
/-- Two sources that agree on the tensor and differ beyond it, on harts that differ in a CSR. -/
theorem witness_TransposeDependsOnTensorAndDescriptorOnly :
    Completes (.tlXpose13 1 2 10) (xposeState 0x02010201 [1, 2, 3, 4, 5]) ∧
    Completes (.tlXpose13 1 2 10) { xposeState 0x02010201 [1, 2, 3, 4, 9] with transposePerm := 0x1B } ∧
    front (xposeState 0x02010201 [1, 2, 3, 4, 5]) 2 4 = front (xposeState 0x02010201 [1, 2, 3, 4, 9]) 2 4 :=
  ⟨completes_of (by decide +kernel), completes_of (by decide +kernel), by decide +kernel⟩

/-! #### Concatenations and the saturating add -/

/-- Both masks, their lowest and highest bit; no byte, and all bytes, past the count. -/
theorem witness_ConcatPacksValidElements :
    (concatState 0x80000001 0x80000001).cfg.concat = .literal ∧
    (concatState 0x80000001 0x80000001).mask1.getLsbD 0 = true ∧
    (concatState 0x80000001 0x80000001).mask1.getLsbD 31 = true ∧
    (concatState 0x80000001 0x80000001).mask2.getLsbD 31 = true ∧
    setBitsBelow (concatState 0 0).mask1 32 + setBitsBelow (concatState 0 0).mask2 32 ≤ 0 ∧
    setBitsBelow (concatState 0xFFFFFFFF 0xFFFFFFFF).mask1 32 +
      setBitsBelow (concatState 0xFFFFFFFF 0xFFFFFFFF).mask2 32 = 64 := by decide
theorem witness_TlAddiExtremes :
    Completes (.tlAddi 5 6 0) State.reset ∧ Completes (.tlAddi 5 6 255) State.reset ∧
    Completes (.tlAddi 5 6 (-255)) State.reset ∧ 255 ≤ (255 : BitVec 12).toInt ∧
    (-255 : BitVec 12).toInt ≤ -255 :=
  ⟨⟨_, rfl⟩, ⟨_, rfl⟩, ⟨_, rfl⟩, by decide, by decide⟩

/-! #### Tensor memory -/

/-- A shape with 64 slices of one element, of which the mask's bit 31 selects the last that has a bit. -/
def manySlices (regions : List Region) : State :=
  { memState .inplace 0x80000000 regions with x := (memState .inplace 0 []).x.set 10 0x01010140 }

/-- Where D0 is above 32: slice 31 is selected and slice 32 is not, so a region of the one byte at offset 31 admits every
selected address, for the load and for the store. -/
theorem witness_slices_31_and_32 :
    let s := manySlices [dataRegion 0x101F 1, dataRegion 0x201F 1]
    let D := shapeOf (s.readX32 10)
    D.valid = true ∧ 32 < D.d0 ∧ s.loadMask.getLsbD 31 = true ∧ selects s.loadMask 31 = true ∧
    selects s.loadMask 32 = false ∧ selects 0xFFFFFFFF 32 = false ∧ Memory.wf s.mem = true ∧
    AllAdmitted s.cfg .read D s.loadMask (s.readX 11) ∧ AllAdmitted s.cfg .write D s.storeMask (s.readX 14) ∧
    NoText s D s.storeMask (s.readX 14) :=
  ⟨by decide, by decide, by decide, by decide, by decide, by decide, by decide,
    forall_selected (by decide) (by decide +kernel), forall_selected (by decide) (by decide +kernel),
    forall_selected (by decide) (by decide +kernel)⟩

/-- A region of exactly the tensor's eight bytes; slices 31 and 32: `witness_slices_31_and_32`. The clauses on an invalid
descriptor and on an address not admitted: `witness_MemoryAccessOfInvalidDescriptorIsRefused` and
`witness_MloadFaultsOnUnadmittedAddress`. -/
theorem witness_MloadLoadsSelectedSlices :
    (shapeOf ((memState .inplace 0xF [dataRegion 0x1000 8]).readX32 10)).valid = true ∧
    AllAdmitted (memState .inplace 0xF [dataRegion 0x1000 8]).cfg .read
      (shapeOf ((memState .inplace 0xF [dataRegion 0x1000 8]).readX32 10))
      (memState .inplace 0xF [dataRegion 0x1000 8]).loadMask ((memState .inplace 0xF [dataRegion 0x1000 8]).readX 11) :=
  ⟨by decide, forall_selected (by decide) (by decide +kernel)⟩

/-- One byte short: the last selected address is not admitted, and none is marked non-idempotent. -/
theorem witness_MloadFaultsOnUnadmittedAddress :
    let s := memState .inplace 0xF [dataRegion 0x1000 7]
    (shapeOf (s.readX32 10)).valid = true ∧
    (∀ a, SelectedAddress s.cfg (shapeOf (s.readX32 10)) s.loadMask (s.readX 11) a → isIdempotent s.cfg a = true) ∧
    (∃ a, SelectedAddress s.cfg (shapeOf (s.readX32 10)) s.loadMask (s.readX 11) a ∧
      admitsData s.cfg .read a = false) :=
  ⟨by decide, forall_selected (by decide) (by decide +kernel),
    0x1007, ⟨3, 1, by decide, by decide, by decide, by decide⟩, by decide⟩

/-- A region of exactly the four packed bytes; slices 31 and 32: `witness_slices_31_and_32`. The other clauses:
`witness_MemoryAccessOfInvalidDescriptorIsRefused` and `witness_MstoreFaultsOnUnadmittedAddress`. -/
theorem witness_MstoreStoresSelectedSlices :
    let s := memState .packed 0xA [dataRegion 0x2000 4]
    Memory.wf s.mem = true ∧ (shapeOf (s.readX32 10)).valid = true ∧
    AllAdmitted s.cfg .write (shapeOf (s.readX32 10)) s.storeMask (s.readX 14) ∧
    NoText s (shapeOf (s.readX32 10)) s.storeMask (s.readX 14) :=
  ⟨by decide, by decide, forall_selected (by decide) (by decide +kernel),
    forall_selected (by decide) (by decide +kernel)⟩

theorem witness_MstoreFaultsOnUnadmittedAddress :
    let s := memState .inplace 0xF [dataRegion 0x2000 4]
    Memory.wf s.mem = true ∧ (shapeOf (s.readX32 10)).valid = true ∧
    (∀ a, SelectedAddress s.cfg (shapeOf (s.readX32 10)) s.storeMask (s.readX 14) a →
      isIdempotent s.cfg a = true ∧ inProgramText s a = false) ∧
    (∃ a, SelectedAddress s.cfg (shapeOf (s.readX32 10)) s.storeMask (s.readX 14) a ∧
      admitsData s.cfg .write a = false) :=
  ⟨by decide, by decide, forall_selected (by decide) (by decide +kernel),
    0x2004, ⟨2, 0, by decide, by decide, by decide, by decide⟩, by decide⟩

/-- The document's A.1 descriptor, and the zero extents of the transposes' witness. -/
theorem witness_MemoryAccessOfInvalidDescriptorIsRefused :
    1024 < (shapeOf ((xposeState 0x02081008 []).readX32 10)).count ∧
    (shapeOf ((xposeState 0x01010100 []).readX32 10)).d0 = 0 := by decide

/-- A device window over the last byte of both tensors. -/
def deviceState : State :=
  memState .inplace 0xF [{ dataRegion 0x1007 1 with idempotent := false }, { dataRegion 0x2007 1 with idempotent := false },
    Region.everything]

theorem witness_NonIdempotentAccessIsRefused :
    (shapeOf (deviceState.readX32 10)).valid = true ∧
    (∃ a, SelectedAddress deviceState.cfg (shapeOf (deviceState.readX32 10)) deviceState.loadMask (deviceState.readX 11) a ∧
      admitsData deviceState.cfg .read a = true ∧ isIdempotent deviceState.cfg a = false) ∧
    (∃ a, SelectedAddress deviceState.cfg (shapeOf (deviceState.readX32 10)) deviceState.storeMask (deviceState.readX 14) a ∧
      admitsData deviceState.cfg .write a = true ∧ isIdempotent deviceState.cfg a = false) :=
  ⟨by decide, ⟨0x1007, ⟨3, 1, by decide, by decide, by decide, by decide⟩, by decide, by decide⟩,
    ⟨0x2007, ⟨3, 1, by decide, by decide, by decide, by decide⟩, by decide, by decide⟩⟩

/-- Marked text that starts at the last byte stored. -/
def textState : State :=
  let s := memState .inplace 0xF [Region.everything]
  { s with cfg := { s.cfg with text := [{ base := 0x2007, size := 1 }] } }

theorem witness_StoreIntoProgramTextIsRefused :
    (shapeOf (textState.readX32 10)).valid = true ∧
    (∀ a, SelectedAddress textState.cfg (shapeOf (textState.readX32 10)) textState.storeMask (textState.readX 14) a →
      admitsData textState.cfg .write a = true → isIdempotent textState.cfg a = true) ∧
    (∃ a, SelectedAddress textState.cfg (shapeOf (textState.readX32 10)) textState.storeMask (textState.readX 14) a ∧
      admitsData textState.cfg .write a = true ∧
      ∃ p ∈ { base := textState.readPc.toNat, size := 4 } :: textState.cfg.text, ∃ k, k < p.size ∧
        a = (p.base + k) % 2 ^ textState.cfg.xlen.bits) :=
  ⟨by decide, forall_selected (by decide) (by decide +kernel),
    0x2007, ⟨3, 1, by decide, by decide, by decide, by decide⟩, by decide,
    { base := 0x2007, size := 1 }, by decide, 0, by decide, by decide⟩

/-- A partial mask under `packed`: the store, then the load of another register. -/
theorem witness_StoreThenLoadRoundTrip :
    Memory.wf (memState .packed 0xA [Region.everything]).mem = true ∧
    ∃ t, exec (.tlMstore 3 14 10) (memState .packed 0xA [Region.everything]) = .next t ∧
      (completes (exec (.tlMload 5 10 14) t) (fun _ => true) && t.loadMask == t.storeMask &&
        t.readX 14 == (memState .packed 0xA [Region.everything]).readX 14 && selects t.storeMask 3) = true :=
  ⟨by decide, next_of_completes (by decide +kernel)⟩

/-- Four slices, and 32 slices with all mask bits set, for the load and for the store. -/
theorem witness_FullMaskMovesArePlainCopies :
    Completes (.tlMload 3 10 11) (memState .packed 0xF [Region.everything]) ∧
    Completes (.tlMstore 3 14 10) (memState .packed 0xF [Region.everything]) ∧
    Memory.wf (memState .packed 0xF [Region.everything]).mem = true ∧
    (∀ i, i < 4 → (memState .packed 0xF [Region.everything]).storeMask.getLsbD i = true) ∧
    Completes (.tlMload 3 10 11) { xposeState 0x01012020 [] with loadMask := 0xFFFFFFFF } ∧
    (∀ i, i < 32 → (0xFFFFFFFF : Word32).getLsbD i = true) :=
  ⟨completes_of (by decide +kernel), completes_of (by decide +kernel), by decide, by decide,
    completes_of (by decide +kernel), by decide⟩

/-- Each kind of instruction completes; `unchanged`, `any` and both ends of the unassigned bytes; an unselected slice. -/
theorem witness_FreeDrawsAndRecordedAccesses :
    Completes (.tlXpose01 1 2 10) (xposeState 0x01010302 []) ∧
    (shapeOf ((xposeState 0x01010302 []).readX32 10)).count ≤ 6 ∧ State.reset.cfg.unassigned = .any ∧
    ({ Config.default with unassigned := .unchanged } : Config).unassigned = .unchanged ∧
    Completes (.tlConcat0 3 1 2) (concatState 0 0) ∧ (concatState 0 0).cfg.concat = .literal ∧
    Completes (.tlAddi 5 6 1) State.reset ∧ Completes (.tlMload 3 10 11) (memState .inplace 0xA [Region.everything]) ∧
    (memState .inplace 0xA [Region.everything]).loadMask.getLsbD 0 = false ∧
    Memory.wf (memState .inplace 0xA [Region.everything]).mem = true ∧
    Completes (.tlMstore 3 14 10) (memState .inplace 0xA [Region.everything]) :=
  ⟨completes_of (by decide +kernel), by decide, rfl, rfl, ⟨_, rfl⟩, rfl, ⟨_, rfl⟩, completes_of (by decide +kernel),
    by decide, by decide, completes_of (by decide +kernel)⟩

/-! #### Base and Zicsr -/

/-- `bne`: taken to a multiple of 4 at either end of the offsets, taken to an address that is none, not taken. -/
theorem witness_BneBranches :
    let s := { State.reset.writeX 5 1 with pc := 0x20 }
    s.readX 5 ≠ s.readX 0 ∧ s.readX 5 = s.readX 5 ∧
    (s.cfg.xlen.wrap (BitVec.ofInt 64 (s.pc.toInt + (4092 : BitVec 13).toInt))).toNat % 4 = 0 ∧
    (s.cfg.xlen.wrap (BitVec.ofInt 64 (s.pc.toInt + (-4096 : BitVec 13).toInt))).toNat % 4 = 0 ∧
    (s.cfg.xlen.wrap (BitVec.ofInt 64 (s.pc.toInt + (4094 : BitVec 13).toInt))).toNat % 4 ≠ 0 := by decide
/-- The implemented CSR addresses, the status register among them, and one that is not: the clauses of `CsrrwSwaps`, `CsrrsSetsBits`,
`CsrrcClearsBits`, `CsrrwiWritesImmediate`, `CsrrsiSetsBits` and `CsrrciClearsBits`. -/
theorem witness_CsrAddresses :
    [0x800, 0x801, 0x802, 0x803, 0x810, 0x811, 0x812, 0x813].map Csr.ofAddress =
      [some .tensorShape, some .transposePerm, some .xposeConfig, some .xposeStatus, some .mask1, some .mask2,
        some .loadMask, some .storeMask] ∧ Csr.ofAddress 0x814 = none := by decide
/-- The addresses next to the implemented ones, and the ends of the range. -/
theorem witness_UnimplementedCsrRaisesIllegalInstruction :
    [0x000, 0x7FF, 0x804, 0x80F, 0x814, 0xFFF].map Csr.ofAddress = List.replicate 6 none ∧
    (0x804 : BitVec 12) ∉ ([0x800, 0x801, 0x802, 0x803, 0x810, 0x811, 0x812, 0x813] : List (BitVec 12)) := by decide
/-- `x0` and another register as destination, and a plain CSR. -/
theorem witness_StatusReadsAreFreeDraws :
    (7 : XReg) ≠ 0 ∧ Csr.ofAddress 0x803 = some .xposeStatus ∧ Csr.ofAddress 0x813 = some .storeMask ∧
    Csr.storeMask ≠ .xposeStatus := by decide
/-- `csrrs x31, 0x813, x31`, and the first of the CSRs. -/
theorem witness_CsrrsCsrrcTakeTheSourceFirst :
    (31 : XReg) ≠ 0 ∧ Csr.ofAddress 0x813 = some .storeMask ∧ Csr.storeMask ≠ .xposeStatus ∧
    Csr.ofAddress 0x800 = some .tensorShape ∧ Csr.tensorShape ≠ .xposeStatus := by decide

end Sys2Proof.Machine.Tests
end

/-! The parameters of the machine never change (O17), and what a completed TensorLoad instruction does to unassigned
bytes, to the free draws and to the record of accesses (O59). -/

namespace Sys2Proof.Machine

/-! ### The state after some stores -/

@[simp] theorem stored_cfg (cells : List Host.Cell) (s : State) : (stored cells s).cfg = s.cfg := rfl

@[simp] theorem stored_draws (cells : List Host.Cell) (s : State) : (stored cells s).draws = s.draws := rfl

@[simp] theorem stored_mem (cells : List Host.Cell) (s : State) :
    (stored cells s).mem = s.mem.writeAll cells := rfl

@[simp] theorem stored_events (cells : List Host.Cell) (s : State) :
    (stored cells s).events = { pc := s.readPc, kind := .write, cells := cellSet cells } :: s.events := rfl

/-! ### The parameters -/

/-- No instruction that completes changes a parameter. -/
theorem exec_keeps_cfg {i : Instr} {s t : State} (h : exec i s = .next t) : t.cfg = s.cfg := by
  cases exec_next h with
  | tensor | load | store | integer | branch => simp
  | csr c rd r w v => cases r <;> cases w <;> simp

/-- Settles O17: the run has ended and the state is the same, or the step is an instruction's execution. -/
theorem parametersNeverChange : Obligations.ParametersNeverChange := by
  intro s t h
  obtain ⟨-, hs⟩ | ⟨e, v, hs⟩ | ⟨-, i, -, hs⟩ := step_cases s <;> rw [hs] at h
  · rw [next_of_eq h]
  · cases h
  · exact exec_keeps_cfg h

/-! ### The families over their shared operations -/

/-- Every transpose is `XPOSE_INSN` for the two dimensions it exchanges (R104 to R109). -/
theorem exec_transposes {p : (TReg → TReg → XReg → Instr) × Dim × Dim} (hp : p ∈ transposes) (rd rs1 : TReg)
    (rs2 : XReg) (s : State) : exec (p.1 rd rs1 rs2) s = xposeInsn p.2.1 p.2.2 rd rs1 rs2 s := by
  simp only [transposes, List.mem_cons, List.not_mem_nil, or_false] at hp
  obtain rfl | rfl | rfl | rfl | rfl | rfl := hp <;> rfl

/-- Every concatenation is `CONCAT_INSN` (R122 to R124). -/
theorem exec_concats {op : TReg → TReg → TReg → Instr} (hop : op ∈ concats) (rd rs1 rs2 : TReg) (s : State) :
    exec (op rd rs1 rs2) s = concatInsn rd rs1 rs2 s := by
  simp only [concats, List.mem_cons, List.not_mem_nil, or_false] at hop
  obtain rfl | rfl | rfl := hop <;> rfl

/-! ### The bytes an instruction leaves unassigned -/

/-- The elements collected from one source are as many as the set bits of its mask (R120, R121). -/
theorem collect_length (mask : Word32) (A : Tensor) : (collect mask A).length = setBitsBelow mask 32 := by
  simp [collect, setBitsBelow, List.countP_eq_length_filter]

/-- A transpose gives the bytes past the tensor no value (R103). -/
theorem xposeInsn_leftUnassigned {a b : Dim} {rd rs1 : TReg} {rs2 : XReg} {s t : State}
    (h : xposeInsn a b rd rs1 rs2 s = .next t) {n : Nat} (hn : (shapeOf (s.readX32 rs2)).count ≤ n)
    (hlt : n < 1024) : LeftUnassigned rd n s t := by
  apply leftUnassigned_of
  rw [(xposeInsn_next h).2]
  simp [hlt, Nat.not_lt.mpr hn]

/-- Under the literal reading a concatenation gives the bytes past the collected ones no value (R121). -/
theorem concatInsn_leftUnassigned {rd rs1 rs2 : TReg} {s t : State} (h : concatInsn rd rs1 rs2 s = .next t)
    (hl : s.cfg.concat = .literal) {n : Nat} (hn : setBitsBelow s.mask1 32 + setBitsBelow s.mask2 32 ≤ n)
    (hlt : n < 1024) : LeftUnassigned rd n s t := by
  have hout : (collect s.mask1 (s.readT rs1) ++ collect s.mask2 (s.readT rs2)).length ≤ n := by
    simpa [collect_length] using hn
  apply leftUnassigned_of
  rw [next_of_eq h]
  simp [hl, concatData, hlt, List.getElem?_eq_none hout]

/-- `tl.mload` gives a byte it does not access no value (R155). -/
theorem loaded_leftUnassigned {rd : TReg} {D : Four} {base : Word} {s : State} {n : Nat} (hlt : n < 1024)
    (ha : accessed D s.loadMask n = false) : LeftUnassigned rd n s (loaded rd D base s) := by
  apply leftUnassigned_of
  simp [loaded, hlt, ha]

/-- A slice from 32 on, or one whose mask bit is 0, is not selected (R151). -/
theorem selects_eq_false {mask : Word32} {i : Nat} (h : 32 ≤ i ∨ mask.getLsbD i = false) :
    selects mask i = false := by
  simp only [selects, Bool.and_eq_false_iff, decide_eq_false_iff_not]
  exact h.imp_left Nat.not_lt.mpr

/-- No element past the tensor is accessed. -/
theorem accessed_of_count_le {D : Four} (mask : Word32) {n : Nat} (h : D.count ≤ n) : accessed D mask n = false := by
  simp [accessed, Nat.not_lt.mpr h]

/-! ### The draws and the record -/

/-- A completed `tl.mload` records exactly the bytes it read, as one set (R67). -/
theorem loaded_recordedAs {D : Four} (rd : TReg) (base : Word) (s : State) (hv : D.valid = true) :
    RecordedAs .read (fun c => SelectedAddress s.cfg D s.loadMask base c.1 ∧ c.2 = s.mem.read c.1) s
      (loaded rd D base s) :=
  ⟨_, rfl, cellSet_rising _, mem_loadCells hv⟩

/-- A completed `tl.mstore` records exactly the bytes memory then holds at the addresses written, as one set (R67). -/
theorem stored_recordedAs {D : Four} {base : Word} {s : State} (A : Tensor) (hm : Memory.wf s.mem = true)
    (hv : D.valid = true) : let t := (stored (storeCells A (accessesOf s.cfg D s.storeMask base)) s).advancePc
    RecordedAs .write (fun c => SelectedAddress s.cfg D s.storeMask base c.1 ∧ c.2 = t.mem.read c.1) s t :=
  ⟨_, rfl, cellSet_rising _, mem_storeCells A hm hv⟩

/-- Settles O59, from what each family leaves unassigned and records. -/
theorem freeDrawsAndRecordedAccesses : Obligations.FreeDrawsAndRecordedAccesses := by
  refine ⟨?transpose, ?concat, ?addi, ?mload, ?mstore⟩
  case transpose =>
    intro p hp rd rs1 rs2 s t h
    rw [exec_transposes hp] at h
    refine ⟨fun n => xposeInsn_leftUnassigned h, ?_⟩
    rw [(xposeInsn_next h).2]
    simp
  case concat =>
    intro op hop rd rs1 rs2 s t h
    rw [exec_concats hop] at h
    refine ⟨fun hl n => concatInsn_leftUnassigned h hl, ?_⟩
    rw [next_of_eq h]
    simp
  case addi =>
    intro rd rs1 imm s t h
    rw [next_of_eq h]
    simp
  case mload =>
    intro rd rs1 rs2 s t h
    obtain ⟨hv, rfl⟩ := execTlMload_next h
    obtain ⟨-, -, -, -, hN⟩ := (valid_iff _).mp hv
    refine ⟨fun i k hi hk hsel => ?_, fun n hn hlt => ?_, rfl, loaded_recordedAs rd _ s hv⟩
    · exact loaded_leftUnassigned (lt_of_lt_of_le (slice_lt hi hk) hN)
        ((accessed_slice _ hi hk).trans (selects_eq_false hsel))
    · exact loaded_leftUnassigned hlt (accessed_of_count_le _ hn)
  case mstore =>
    intro rs1 rs2 rd s t hm h
    obtain ⟨hv, rfl⟩ := execTlMstore_next h
    exact ⟨rfl, stored_recordedAs _ hm hv⟩

end Sys2Proof.Machine

/-! What reset leaves (O14), and the rules over all instructions that say which registers an instruction leaves alone
(O18, O19, O20, O22, O23) and which CSR addresses and reads are special (O57, O58). -/

namespace Sys2Proof.Machine

/-! ### Reset -/

theorem readX_resetWith (c : Config) (r : XReg) : (State.resetWith c).readX r = 0 := by
  by_cases h : r = 0
  · exact if_pos h
  · rw [readX_of_ne _ r h]
    simp [State.resetWith]

theorem readT_resetWith_byte (c : Config) (r : TReg) (k : Nat) :
    Tensor.byte ((State.resetWith c).readT r) k = 0 := by
  simp [Tensor.byte, State.readT, State.resetWith]

theorem csr_resetWith (c : Config) (r : Csr) : (State.resetWith c).csr r = 0 := by cases r <;> rfl

/-- Settles O14, register file by register file; the rest of the reset state is as `State.resetWith` lists it. -/
theorem resetState : Obligations.ResetState :=
  ⟨rfl, readX_resetWith _ 0, fun c => ⟨rfl, rfl, readX_resetWith c, fun r k _ => readT_resetWith_byte c r k,
    csr_resetWith c, fun _ => rfl, rfl⟩⟩

/-! ### What a store and a trap keep -/

@[simp] theorem stored_pc (cells : List Host.Cell) (s : State) : (stored cells s).pc = s.pc := rfl

@[simp] theorem stored_x (cells : List Host.Cell) (s : State) : (stored cells s).x = s.x := rfl

@[simp] theorem stored_t (cells : List Host.Cell) (s : State) : (stored cells s).t = s.t := rfl

@[simp] theorem stored_csr (cells : List Host.Cell) (s : State) (c : Csr) : (stored cells s).csr c = s.csr c := by
  cases c <;> rfl

@[simp] theorem loadFaulted_pc (rd : TReg) (acc : List Access) (s : State) : (loadFaulted rd acc s).pc = s.pc := rfl

/-- Whatever the exception, its trap records the code, the pc, the value and the state (R208). -/
@[simp] theorem trapOf_raise (e : Exception) (v : Word) (s : State) :
    (raise e v s).trapOf = { code := e.code, pc := s.readPc, value := v, final := s } := by
  cases e <;> rfl

/-- No instruction that traps moves the pc (R24). -/
theorem exec_fault_keeps_pc {i : Instr} {s : State} {f : Fault} (h : exec i s = .fault f) :
    f.trapOf.final.pc = s.pc := by
  cases exec_fault h with
  | unchanged | load | store => simp

/-! ### Rules over all instructions, from the shapes of a next state -/

/-- Settles O18: a completed one has one of the three TensorLoad shapes, each of which ends in `advancePc`, and no
trap moves the pc. -/
theorem tensorLoadInstructionsAdvancePc : Obligations.TensorLoadInstructionsAdvancePc := by
  refine fun i s hi => ⟨fun t h => ?_, fun f h => exec_fault_keeps_pc h⟩
  cases exec_next h with
  | tensor | load | store => simp
  | integer _ _ hf | branch _ _ hf | csr _ _ _ _ _ hf => cases hi.symm.trans hf

/-- Settles O19: none of the three TensorLoad shapes writes `x`. -/
theorem tensorLoadInstructionsKeepIntegerRegisters : Obligations.TensorLoadInstructionsKeepIntegerRegisters := by
  intro i s t hi h
  cases exec_next h with
  | tensor | load | store => simp
  | integer _ _ hf | branch _ _ hf | csr _ _ _ _ _ hf => cases hi.symm.trans hf

/-- Settles O20: the two shapes that write a tensor register are those of a TensorLoad instruction other than
`tl.mstore`. -/
theorem otherInstructionsKeepTensorRegisters : Obligations.OtherInstructionsKeepTensorRegisters := by
  intro i s t hi h
  cases exec_next h with
  | tensor _ _ _ ht hs | load _ _ _ _ ht hs => simp [ht, hs] at hi
  | store | integer | branch => simp
  | csr c rd r w v => cases r <;> cases w <;> simp

/-- Settles O22: of the shapes of a next state only that of a Zicsr instruction writes a CSR. -/
theorem onlyZicsrChangesCsrs : Obligations.OnlyZicsrChangesCsrs := by
  intro i s t hi h c
  cases exec_next h with
  | tensor | load | store | integer | branch => simp
  | csr _ _ _ _ _ _ _ hz => cases hi.symm.trans hz

/-! ### When a tensor memory instruction completes -/

/-- `tl.mload` completes exactly when its descriptor is valid and its accesses are admitted (R153 to R155). -/
theorem execTlMload_eq_next_iff {rd : TReg} {rs1 rs2 : XReg} {s t : State} :
    execTlMload rd rs1 rs2 s = .next t ↔ (shapeOf (s.readX32 rs1)).valid = true ∧
      checkAccesses s .read (accessesOf s.cfg (shapeOf (s.readX32 rs1)) s.loadMask (s.readX rs2)) = .admitted ∧
      t = loaded rd (shapeOf (s.readX32 rs1)) (s.readX rs2) s := by
  constructor
  · intro h
    obtain ⟨hv, ht⟩ := execTlMload_next h
    refine ⟨hv, ?_, ht⟩
    simp only [execTlMload, hv, if_true] at h
    split at h
    · assumption
    · cases h
    · cases h
  · rintro ⟨hv, hc, rfl⟩
    simp [execTlMload, hv, hc]

/-- `tl.mstore` completes exactly when its descriptor is valid and its accesses are admitted (R153, R154, R156). -/
theorem execTlMstore_eq_next_iff {rs1 : TReg} {rs2 rd : XReg} {s t : State} :
    execTlMstore rs1 rs2 rd s = .next t ↔ (shapeOf (s.readX32 rd)).valid = true ∧
      checkAccesses s .write (accessesOf s.cfg (shapeOf (s.readX32 rd)) s.storeMask (s.readX rs2)) = .admitted ∧
      t = (stored (storeCells (s.readT rs1)
        (accessesOf s.cfg (shapeOf (s.readX32 rd)) s.storeMask (s.readX rs2))) s).advancePc := by
  constructor
  · intro h
    obtain ⟨hv, ht⟩ := execTlMstore_next h
    refine ⟨hv, ?_, ht⟩
    simp only [execTlMstore, hv, if_true] at h
    split at h
    · assumption
    · cases h
    · cases h
  · rintro ⟨hv, hc, rfl⟩
    simp [execTlMstore, hv, hc]

/-! ### The three CSRs that are storage without effect (R33 to R35, D10) -/

/-- Settles O23: what decides that a TensorLoad instruction completes does not read the three CSRs, so that it decides
the same with other contents, and the next state is then the same expression of a state with those contents. -/
theorem shapeAndConfigCsrsAreInert : Obligations.ShapeAndConfigCsrsAreInert := by
  intro i s t a b c hi h
  cases i with
  | tlXpose01 | tlXpose02 | tlXpose03 | tlXpose12 | tlXpose13 | tlXpose23 =>
    obtain ⟨hv, rfl⟩ := xposeInsn_next h
    exact xposeInsn_valid _ _ _ _ _ _ hv
  | tlConcat0 | tlConcat1 | tlConcat2 | tlAddi =>
    rw [next_of_eq h]
    rfl
  | tlMload =>
    obtain ⟨hv, hc, rfl⟩ := execTlMload_eq_next_iff.mp h
    exact execTlMload_eq_next_iff.mpr ⟨hv, hc, rfl⟩
  | tlMstore =>
    obtain ⟨hv, hc, rfl⟩ := execTlMstore_eq_next_iff.mp h
    exact execTlMstore_eq_next_iff.mpr ⟨hv, hc, rfl⟩
  | lui | addi | bne | csrrw | csrrs | csrrc | csrrwi | csrrsi | csrrci => cases hi

/-! ### The six Zicsr instructions over their shared operation -/

/-- The six Zicsr instructions on one destination, one CSR address and one source field. -/
def zicsrForms (rd : XReg) (csr : BitVec 12) (r : BitVec 5) : List Instr :=
  [.csrrw rd csr r, .csrrs rd csr r, .csrrc rd csr r, .csrrwi rd csr r, .csrrsi rd csr r, .csrrci rd csr r]

/-- Each of the six is `csrInsn` on its own destination and CSR address (R180 to R185). -/
theorem exec_zicsrForms {rd : XReg} {csr : BitVec 12} {r : BitVec 5} {i : Instr} (hi : i ∈ zicsrForms rd csr r)
    (s : State) : ∃ reads writes update, exec i s = csrInsn i rd csr reads writes update s := by
  simp only [zicsrForms, List.mem_cons, List.not_mem_nil, or_false] at hi
  obtain rfl | rfl | rfl | rfl | rfl | rfl := hi
  · exact ⟨_, _, _, exec_csrrw rd csr r s⟩
  · exact ⟨_, _, _, exec_csrrs rd csr r s⟩
  · exact ⟨_, _, _, exec_csrrc rd csr r s⟩
  · exact ⟨_, _, _, exec_csrrwi rd csr r s⟩
  · exact ⟨_, _, _, exec_csrrsi rd csr r s⟩
  · exact ⟨_, _, _, exec_csrrci rd csr r s⟩

/-! ### Addresses of no CSR (R41) -/

/-- The eight addresses of R30 are the implemented ones. -/
theorem ofAddress_eq_none_iff (csr : BitVec 12) : Csr.ofAddress csr = none ↔
    csr ∉ ([0x800, 0x801, 0x802, 0x803, 0x810, 0x811, 0x812, 0x813] : List (BitVec 12)) := by
  unfold Csr.ofAddress
  split_ifs <;> simp_all

/-- The value recorded for an illegal word is the word or 0 (R201). -/
theorem illegalValueOf_eq_or (c : Config) (w : Word32) :
    illegalValueOf c w = w.setWidth 64 ∨ illegalValueOf c w = 0 := by
  unfold illegalValueOf
  cases c.illegalValue
  · exact .inl rfl
  · exact .inr rfl

/-- A Zicsr access of an unimplemented CSR is the illegal instruction's trap for its own word (R41, R201). -/
theorem csrInsn_illegalTrap {csr : BitVec 12} (h : Csr.ofAddress csr = none) (i : Instr) (rd : XReg)
    (reads writes : Bool) (update : Word32 → Word32) (s : State) :
    ∃ trap, csrInsn i rd csr reads writes update s = .fault (.illegalInstruction trap) ∧
      IllegalTrap (encode i) s trap :=
  ⟨_, csrInsn_none h, rfl, rfl, illegalValueOf_eq_or s.cfg (encode i), rfl⟩

/-- Settles O57: all six are the one access, which traps at an unimplemented address. -/
theorem unimplementedCsrRaisesIllegalInstruction : Obligations.UnimplementedCsrRaisesIllegalInstruction := by
  intro rd csr r s hcsr i hi
  obtain ⟨reads, writes, update, he⟩ := exec_zicsrForms hi s
  rw [he]
  exact csrInsn_illegalTrap ((ofAddress_eq_none_iff csr).mpr hcsr) i rd reads writes update s

/-! ### Reads of `tl_xpose_status` (R36) -/

/-- 32 bits zero-extended fit a register of either `XLEN`. -/
theorem wrap_setWidth_word32 (x : Xlen) (v : Word32) : x.wrap (v.setWidth 64) = v.setWidth 64 := by
  cases x
  · simp [Xlen.wrap]
  · rfl

/-- The next state of a read of `tl_xpose_status` into `x[rd]`. -/
def State.afterStatusRead (s : State) (rd : XReg) : State :=
  ((s.afterCsrRead .xposeStatus).writeX rd ((Config.freeWord s.draws).setWidth 64)).advancePc

theorem afterStatusRead_readX (s : State) {rd : XReg} (h : rd ≠ 0) :
    (s.afterStatusRead rd).readX rd = (Config.freeWord s.draws).setWidth 64 := by
  simp [State.afterStatusRead, readX_writeX_same _ _ _ h, wrap_setWidth_word32]

theorem afterStatusRead_draws (s : State) (rd : XReg) : (s.afterStatusRead rd).draws = s.draws + 1 := by
  simp [State.afterStatusRead, State.afterCsrRead]

/-- A form that reads comes to the read alone, whatever it would write. -/
theorem csrInsn_status_read (i : Instr) (rd : XReg) (writes : Bool) (update : Word32 → Word32) (s : State) :
    csrInsn i rd 0x803 true writes update s = .next (s.afterStatusRead rd) :=
  csrInsn_status rfl i rd true writes update s

/-- A form that reads unless `rd = x0` comes to the read, or to the advance of the pc. -/
theorem csrInsn_status_read_unless_x0 (i : Instr) (rd : XReg) (writes : Bool) (update : Word32 → Word32) (s : State) :
    csrInsn i rd 0x803 (rd != 0) writes update s =
      if rd = 0 then .next s.advancePc else .next (s.afterStatusRead rd) := by
  rw [csrInsn_status rfl]
  simp only [bne_iff_ne, ne_eq, ite_not]
  split_ifs <;> rfl

/-- Settles O58: at `0x803` every form is the read it makes; at any other CSR no form spends a draw. -/
theorem statusReadsAreFreeDraws : Obligations.StatusReadsAreFreeDraws := by
  refine ⟨fun rd r s => ⟨s.afterStatusRead rd, ?pure, afterStatusRead_readX s, afterStatusRead_draws s rd, ?reading,
    ?writing⟩, ?plain⟩
  case pure => rw [exec_csrrs, csrInsn_status_read]
  case reading =>
    simp only [List.forall_mem_cons, exec_csrrs, exec_csrrc, exec_csrrsi, exec_csrrci, csrInsn_status_read]
    simp
  case writing =>
    simp only [List.forall_mem_cons, exec_csrrw, exec_csrrwi, csrInsn_status_read_unless_x0]
    simp
  case plain =>
    intro rd r csr c s hcsr hc
    refine ⟨csrValue_plain s c hc, fun i hi => ?_⟩
    obtain ⟨reads, writes, update, he⟩ := exec_zicsrForms hi s
    obtain ⟨t, ht, -, -, -, hdraws, -⟩ := csrInsn_some (i := i) (rd := rd) (r := reads) (w := writes) (f := update)
      (s := s) hcsr
    exact ⟨t, he.trans ht, hdraws hc⟩

end Sys2Proof.Machine

/-! What memory keeps: only `tl.mstore` changes it (O21), an access that would reach a non-idempotent location or a store
that would reach the program's own instructions is refused (O44, O45), and reset meets the invariant (O15). -/

namespace Sys2Proof.Machine

/-- Settles O21: of the shapes of a next state only that of `tl.mstore` writes memory. -/
theorem onlyMstoreChangesMemory : Obligations.OnlyMstoreChangesMemory := by
  intro i s t hi h
  cases exec_next h with
  | tensor | load | integer | branch => simp
  | store _ _ hs => cases hi.symm.trans hs
  | csr c rd r w v => cases r <;> cases w <;> simp

/-! ### A refused access ends a tensor memory instruction -/

theorem exec_tlMload_of_refuse {rd : TReg} {rs1 rs2 : XReg} {s : State} {r : Refusal}
    (hv : (shapeOf (s.readX32 rs1)).valid = true)
    (hc : checkAccesses s .read (accessesOf s.cfg (shapeOf (s.readX32 rs1)) s.loadMask (s.readX rs2)) = .refuse r) :
    exec (.tlMload rd rs1 rs2) s = .refused r := by
  simp [exec, execTlMload, hv, hc]

theorem exec_tlMstore_of_refuse {rs1 : TReg} {rs2 rd : XReg} {s : State} {r : Refusal}
    (hv : (shapeOf (s.readX32 rd)).valid = true)
    (hc : checkAccesses s .write (accessesOf s.cfg (shapeOf (s.readX32 rd)) s.storeMask (s.readX rs2)) = .refuse r) :
    exec (.tlMstore rs1 rs2 rd) s = .refused r := by
  simp [exec, execTlMstore, hv, hc]

/-! ### The judgement over the selected addresses (R57, R65; assumption log 18) -/

/-- Some selected address has a property exactly when the address of some access has it. -/
theorem exists_selectedAddress_iff (c : Config) {D : Four} (m : Word32) (base : Word) (hv : D.valid = true)
    (P : Nat → Prop) :
    (∃ x, SelectedAddress c D m base x ∧ P x) ↔ ∃ a ∈ accessesOf c D m base, P a.address := by
  simp only [selectedAddress_iff c m base (sliceSize_pos hv)]
  constructor
  · rintro ⟨_, ⟨a, ha, rfl⟩, hP⟩
    exact ⟨a, ha, hP⟩
  · rintro ⟨a, ha, hP⟩
    exact ⟨_, ⟨a, ha, rfl⟩, hP⟩

/-- A selected address is an address of `XLEN` bits (R58). -/
theorem selectedAddress_lt {c : Config} {D : Four} {m : Word32} {base : Word} {x : Nat} (hv : D.valid = true)
    (h : SelectedAddress c D m base x) : x < 2 ^ c.xlen.bits := by
  obtain ⟨a, ha, rfl⟩ := (selectedAddress_iff c m base (sliceSize_pos hv) x).mp h
  exact access_address_lt ha

/-- An admitted selected address that is not idempotent makes the judgement a refusal that names one (R57). -/
theorem checkAccesses_refuses_nonIdempotent {s : State} {kind : AccessKind} {D : Four} {m : Word32} {base : Word}
    (hv : D.valid = true) (h : ∃ x, SelectedAddress s.cfg D m base x ∧ admitsData s.cfg kind x = true ∧
      isIdempotent s.cfg x = false) :
    ∃ x, SelectedAddress s.cfg D m base x ∧
      checkAccesses s kind (accessesOf s.cfg D m base) = .refuse (.nonIdempotentLocation x) ∧
      admitsData s.cfg kind x = true ∧ isIdempotent s.cfg x = false :=
  (exists_selectedAddress_iff s.cfg m base hv _).mpr
    (checkAccesses_nonIdempotent ((exists_selectedAddress_iff s.cfg m base hv _).mp h))

/-- Where no access is refused under R57, an admitted selected address in the program's own instructions makes the
judgement of a store a refusal that names one (R65). -/
theorem checkAccesses_refuses_text {s : State} {D : Four} {m : Word32} {base : Word} (hv : D.valid = true)
    (hidem : ∀ x, SelectedAddress s.cfg D m base x → admitsData s.cfg .write x = true → isIdempotent s.cfg x = true)
    (h : ∃ x, SelectedAddress s.cfg D m base x ∧ admitsData s.cfg .write x = true ∧ inProgramText s x = true) :
    ∃ x, SelectedAddress s.cfg D m base x ∧
      checkAccesses s .write (accessesOf s.cfg D m base) = .refuse (.storeIntoProgramText x) ∧
      admitsData s.cfg .write x = true ∧ inProgramText s x = true :=
  (exists_selectedAddress_iff s.cfg m base hv _).mpr (checkAccesses_text
    (fun a ha => hidem _ ((selectedAddress_iff s.cfg m base (sliceSize_pos hv) _).mpr ⟨a, ha, rfl⟩))
    ((exists_selectedAddress_iff s.cfg m base hv _).mp h))

/-- Settles O44: load and store end in the refusal their judgement names. -/
theorem nonIdempotentAccessIsRefused : Obligations.NonIdempotentAccessIsRefused := by
  refine ⟨fun rd rs1 rs2 s hv h => ?load, fun rs1 rs2 rd s hv h => ?store⟩
  case load =>
    obtain ⟨a, hsel, hc, hbad⟩ := checkAccesses_refuses_nonIdempotent hv h
    exact ⟨a, exec_tlMload_of_refuse hv hc, hsel, hbad⟩
  case store =>
    obtain ⟨a, hsel, hc, hbad⟩ := checkAccesses_refuses_nonIdempotent hv h
    exact ⟨a, exec_tlMstore_of_refuse hv hc, hsel, hbad⟩

/-- Settles O45: the spans of the premise are the program text the judgement of the store looks for. -/
theorem storeIntoProgramTextIsRefused : Obligations.StoreIntoProgramTextIsRefused := by
  rintro rs1 rs2 rd s hv hidem ⟨b, hb, hadm, hspan⟩
  have htext : inProgramText s b = true := (inProgramText_iff s (selectedAddress_lt hv hb)).mpr hspan
  obtain ⟨a, hsel, hc, hbad⟩ := checkAccesses_refuses_text hv hidem ⟨b, hb, hadm, htext⟩
  exact ⟨a, exec_tlMstore_of_refuse hv hc, hsel, hbad⟩

/-! ### The invariant at reset -/

/-- A sane `RESET_PC` is all the invariant asks of the parameters: the registers are zero, and nothing is listed or
recorded. -/
theorem inv_resetWith {c : Config} (h : saneConfig c) : (State.resetWith c).Inv where
  mem_wf := wf_reset c
  mem_in_space := List.forall_mem_nil _
  pc_width := h.1
  pc_aligned := h.2
  x_width r := by simp [State.resetWith]
  x0_zero := rfl
  events_sets := List.forall_mem_nil _

/-- Settles O15: the default `RESET_PC`, 0, is sane, and any sane one is enough. -/
theorem invariantAtReset : Obligations.InvariantAtReset := ⟨⟨rfl, rfl⟩, fun _ => inv_resetWith⟩

end Sys2Proof.Machine

/-! The opcode table decides every word (O1), by the word's fixed fields and by encoding what was decoded, and the words
that are no instruction of the hart raise `IllegalInstruction` (O6, O8). -/

namespace Sys2Proof

/-! ### The rows of the table (R75) -/

/-- A word that matches two rows makes their fixed bits agree wherever both fix one. -/
theorem matches_agree {r q : OpcodeRow} {w : Word32} (hr : w &&& r.mask = r.match') (hq : w &&& q.mask = q.match') :
    r.match' &&& q.mask = q.match' &&& r.mask := by
  rw [← hr, ← hq, BitVec.and_assoc, BitVec.and_assoc, BitVec.and_comm r.mask]

/-- Any two rows differ in a bit that both fix. -/
theorem opcodeTable_rows_differ :
    opcodeTable.Pairwise fun r q => r.match' &&& q.mask ≠ q.match' &&& r.mask := by decide

theorem opcodeTable_disjoint : opcodeTable.Pairwise fun r q =>
    ∀ w : Word32, ¬ (w &&& r.mask = r.match' ∧ w &&& q.mask = q.match') :=
  opcodeTable_rows_differ.imp fun hne _ ⟨hr, hq⟩ => hne (matches_agree hr hq)

/-- A mnemonic names one row. -/
theorem row_eq_of_mnemonic_eq {r q : OpcodeRow} (hr : r ∈ opcodeTable) (hq : q ∈ opcodeTable)
    (h : r.mnemonic = q.mnemonic) : r = q :=
  List.inj_on_of_nodup_map (f := OpcodeRow.mnemonic) (by decide) hr hq h

/-- Every row fixes the whole opcode. -/
theorem opcodeOf_row_mask : ∀ row ∈ opcodeTable, opcodeOf row.mask = BitVec.allOnes 7 := by decide

theorem opcodeOf_and (w m : Word32) : opcodeOf (w &&& m) = opcodeOf w &&& opcodeOf m := BitVec.extractLsb'_and

theorem opcodeOf_eq_of_matches {row : OpcodeRow} (hrow : row ∈ opcodeTable) {w : Word32}
    (h : w &&& row.mask = row.match') : opcodeOf w = opcodeOf row.match' := by
  rw [← h, opcodeOf_and, opcodeOf_row_mask row hrow, BitVec.and_allOnes]

theorem mem_tensorRows_of_opcode :
    ∀ row ∈ opcodeTable, opcodeOf row.match' = 0b1011011 → row ∈ tensorRows := by decide

/-! ### A word that decodes is the encoding of its instruction -/

theorem encodeR_of_fields {w : Word32} {f7 : BitVec 7} {f3 : BitVec 3} {op : BitVec 7} (h7 : funct7Of w = f7)
    (h3 : funct3Of w = f3) (ho : opcodeOf w = op) : encodeR f7 (rs2Of w) (rs1Of w) f3 (rdOf w) op = w := by
  rw [← h7, ← h3, ← ho, eq_encodeR]

theorem encodeI_of_fields {w : Word32} {f3 : BitVec 3} {op : BitVec 7} (h3 : funct3Of w = f3)
    (ho : opcodeOf w = op) : encodeI (immIOf w) (rs1Of w) f3 (rdOf w) op = w := by
  rw [← h3, ← ho, eq_encodeI]

theorem encode_of_decodeXpose {w : Word32} {i : Instr} (ho : opcodeOf w = 0b1011011) (h3 : funct3Of w = 0b000)
    (h : decodeXpose w = .ok i) : encode i = w := by
  unfold decodeXpose at h
  split_ifs at h <;> cases h <;> exact encodeR_of_fields ‹funct7Of w = _› h3 ho

theorem encode_of_decodeConcat {w : Word32} {i : Instr} (ho : opcodeOf w = 0b1011011) (h3 : funct3Of w = 0b001)
    (h : decodeConcat w = .ok i) : encode i = w := by
  unfold decodeConcat at h
  split_ifs at h <;> cases h <;> exact encodeR_of_fields ‹funct7Of w = _› h3 ho

theorem encode_of_decodeCustom2 {w : Word32} {i : Instr} (ho : opcodeOf w = 0b1011011)
    (h : decodeCustom2 w = .ok i) : encode i = w := by
  unfold decodeCustom2 at h
  split_ifs at h with hxpose hconcat haddi hmload hmstore
  · exact encode_of_decodeXpose ho hxpose h
  · exact encode_of_decodeConcat ho hconcat h
  · cases h; exact encodeI_of_fields haddi ho
  · cases h; exact encodeR_of_fields hmload.2 hmload.1 ho
  · cases h; exact encodeR_of_fields hmstore.2 hmstore.1 ho

theorem encode_of_decodeZicsr {w : Word32} {i : Instr} (ho : opcodeOf w = 0b1110011)
    (h : decodeZicsr w = .ok i) : encode i = w := by
  unfold decodeZicsr at h
  split_ifs at h <;> cases h <;> exact encodeI_of_fields ‹funct3Of w = _› ho

theorem encode_of_decodeWord {w : Word32} {i : Instr} (h : decodeWord w = .ok i) : encode i = w := by
  unfold decodeWord at h
  split_ifs at h with hcustom hlui haddi hbne hzicsr
  · exact encode_of_decodeCustom2 hcustom h
  · cases h; rw [encode, ← hlui, eq_encodeU]
  · cases h; exact encodeI_of_fields haddi.2 haddi.1
  · cases h; rw [encode, ← hbne.1, ← hbne.2, eq_encodeB]
  · exact encode_of_decodeZicsr hzicsr h

/-! ### The row of a word that decodes -/

open Laws in
/-- The encoding of any instruction matches the row of its mnemonic. -/
theorem encode_matches_row (i : Instr) : EncodeMatchesRow.Statement i := by
  cases i
  exacts [EncodeMatchesRow.tlXpose01 _ _ _, EncodeMatchesRow.tlXpose02 _ _ _, EncodeMatchesRow.tlXpose03 _ _ _,
    EncodeMatchesRow.tlXpose12 _ _ _, EncodeMatchesRow.tlXpose13 _ _ _, EncodeMatchesRow.tlXpose23 _ _ _,
    EncodeMatchesRow.tlConcat0 _ _ _, EncodeMatchesRow.tlConcat1 _ _ _, EncodeMatchesRow.tlConcat2 _ _ _,
    EncodeMatchesRow.tlAddi _ _ _, EncodeMatchesRow.tlMload _ _ _, EncodeMatchesRow.tlMstore _ _ _,
    EncodeMatchesRow.lui _ _, EncodeMatchesRow.addi _ _ _, EncodeMatchesRow.bne _ _ _,
    EncodeMatchesRow.csrrw _ _ _, EncodeMatchesRow.csrrs _ _ _, EncodeMatchesRow.csrrc _ _ _,
    EncodeMatchesRow.csrrwi _ _ _, EncodeMatchesRow.csrrsi _ _ _, EncodeMatchesRow.csrrci _ _ _]

theorem exists_row_of_decodeWord {w : Word32} {i : Instr} (h : decodeWord w = .ok i) :
    ∃ row ∈ opcodeTable, row.mnemonic = i.mnemonic ∧ w &&& row.mask = row.match' :=
  encode_of_decodeWord h ▸ encode_matches_row i

/-- A word that decodes matches whichever row has its instruction's mnemonic. -/
theorem matches_of_decodeWord {row : OpcodeRow} (hrow : row ∈ opcodeTable) {w : Word32} {i : Instr}
    (h : decodeWord w = .ok i) (hi : i.mnemonic = row.mnemonic) : w &&& row.mask = row.match' := by
  obtain ⟨q, hq, hqi, hm⟩ := exists_row_of_decodeWord h
  rwa [row_eq_of_mnemonic_eq hrow hq (hi.symm.trans hqi.symm)]

/-! ### A word that matches a row decodes -/

/-- The tensor rows' fixed bits, field by field (R71, R72, R75). -/
theorem tensorRows_fields : tensorRows =
    [⟨"tl.xpose.01", encodeR 0b0110001 0 0 0b000 0 0b1011011, 0xFE00707F⟩,
     ⟨"tl.xpose.02", encodeR 0b0110010 0 0 0b000 0 0b1011011, 0xFE00707F⟩,
     ⟨"tl.xpose.03", encodeR 0b0110011 0 0 0b000 0 0b1011011, 0xFE00707F⟩,
     ⟨"tl.xpose.12", encodeR 0b0111001 0 0 0b000 0 0b1011011, 0xFE00707F⟩,
     ⟨"tl.xpose.13", encodeR 0b0111010 0 0 0b000 0 0b1011011, 0xFE00707F⟩,
     ⟨"tl.xpose.23", encodeR 0b0111011 0 0 0b000 0 0b1011011, 0xFE00707F⟩,
     ⟨"tl.concat.0", encodeR 0b1000000 0 0 0b001 0 0b1011011, 0xFE00707F⟩,
     ⟨"tl.concat.1", encodeR 0b1000001 0 0 0b001 0 0b1011011, 0xFE00707F⟩,
     ⟨"tl.concat.2", encodeR 0b1000010 0 0 0b001 0 0b1011011, 0xFE00707F⟩,
     ⟨"tl.addi", encodeI 0 0 0b010 0 0b1011011, 0x0000707F⟩,
     ⟨"tl.mload", encodeR 0b1010000 0 0 0b011 0 0b1011011, 0xFE00707F⟩,
     ⟨"tl.mstore", encodeR 0b1010001 0 0 0b100 0 0b1011011, 0xFE00707F⟩] := rfl

/-- The support rows' fixed bits, field by field (R170 to R173, R180 to R185). -/
theorem supportRows_fields : supportRows =
    [⟨"lui", encodeU 0 0 0b0110111, 0x0000007F⟩,
     ⟨"addi", encodeI 0 0 0b000 0 0b0010011, 0x0000707F⟩,
     ⟨"bne", encodeI 0 0 0b001 0 0b1100011, 0x0000707F⟩,
     ⟨"csrrw", encodeI 0 0 0b001 0 0b1110011, 0x0000707F⟩,
     ⟨"csrrs", encodeI 0 0 0b010 0 0b1110011, 0x0000707F⟩,
     ⟨"csrrc", encodeI 0 0 0b011 0 0b1110011, 0x0000707F⟩,
     ⟨"csrrwi", encodeI 0 0 0b101 0 0b1110011, 0x0000707F⟩,
     ⟨"csrrsi", encodeI 0 0 0b110 0 0b1110011, 0x0000707F⟩,
     ⟨"csrrci", encodeI 0 0 0b111 0 0b1110011, 0x0000707F⟩] := rfl

theorem decodeWord_of_tensorRow (w : Word32) : ∀ row ∈ tensorRows, w &&& row.mask = row.match' →
    ∃ i, decodeWord w = .ok i ∧ i.mnemonic = row.mnemonic := by
  simp only [tensorRows_fields, List.forall_mem_cons, matchesR_iff, matchesI_iff]
  refine ⟨?_, ?_, ?_, ?_, ?_, ?_, ?_, ?_, ?_, ?addi, ?_, ?_, List.forall_mem_nil _⟩
  case addi =>
    rintro ⟨h3, ho⟩
    simp [decodeWord, decodeCustom2, h3, ho, Instr.mnemonic]
  all_goals
    rintro ⟨h7, h3, ho⟩
    simp [decodeWord, decodeCustom2, decodeXpose, decodeConcat, h7, h3, ho, Instr.mnemonic]

theorem decodeWord_of_supportRow (w : Word32) : ∀ row ∈ supportRows, w &&& row.mask = row.match' →
    ∃ i, decodeWord w = .ok i ∧ i.mnemonic = row.mnemonic := by
  simp only [supportRows_fields, List.forall_mem_cons, matchesU_iff, matchesI_iff]
  refine ⟨?lui, ?_, ?_, ?_, ?_, ?_, ?_, ?_, ?_, List.forall_mem_nil _⟩
  case lui =>
    intro ho
    simp [decodeWord, ho, Instr.mnemonic]
  all_goals
    rintro ⟨h3, ho⟩
    simp [decodeWord, decodeZicsr, h3, ho, Instr.mnemonic]

theorem decodeWord_of_matches {row : OpcodeRow} (hrow : row ∈ opcodeTable) {w : Word32}
    (h : w &&& row.mask = row.match') : ∃ i, decodeWord w = .ok i ∧ i.mnemonic = row.mnemonic :=
  (List.mem_append.mp hrow).elim (decodeWord_of_tensorRow w row · h) (decodeWord_of_supportRow w row · h)

/-! ### The reserved words of the CUSTOM-2 space (R80) -/

/-- The CUSTOM-2 decoder has one reason to reject. -/
theorem decodeCustom2_reject {w : Word32} {why : DecodeReject} (h : decodeCustom2 w = .reject why) :
    why = .reservedCustom2 := by
  unfold decodeCustom2 decodeXpose decodeConcat at h
  split_ifs at h <;> cases h <;> rfl

theorem decodeWord_reserved {w : Word32} (ho : opcodeOf w = 0b1011011)
    (hno : ∀ row ∈ tensorRows, w &&& row.mask ≠ row.match') : decodeWord w = .reject .reservedCustom2 := by
  cases h : decodeWord w with
  | ok i =>
    obtain ⟨row, hrow, -, hm⟩ := exists_row_of_decodeWord h
    have hopcode : opcodeOf row.match' = 0b1011011 := (opcodeOf_eq_of_matches hrow hm).symm.trans ho
    exact absurd hm (hno row (mem_tensorRows_of_opcode row hrow hopcode))
  | reject why => rw [decodeCustom2_reject ((if_pos ho).symm.trans h)]

/-- Settles O1: a word that matches a row decodes by its fixed fields, and one that decodes is the encoding of its
instruction, which matches that instruction's row. -/
theorem opcodeTableDecidesEveryWord : Obligations.OpcodeTableDecidesEveryWord :=
  ⟨fun _ hrow _ => ⟨decodeWord_of_matches hrow, fun ⟨_, h, hi⟩ => matches_of_decodeWord hrow h hi⟩,
    opcodeTable_disjoint, fun _ => decodeWord_reserved⟩

/-! ### Decoding on a hart (R82) -/

theorem Config.decode_of_reject {c : Config} {bytes : List Byte} {why : DecodeReject}
    (h : Sys2Proof.decode bytes = .reject why) : c.decode bytes = .reject why := by
  rw [Config.decode, h]

theorem Config.decode_of_absent {c : Config} {bytes : List Byte} {i : Instr} (h : Sys2Proof.decode bytes = .ok i)
    (habsent : c.subext.implements i = false) : c.decode bytes = .reject .absentSubextension := by
  simp [Config.decode, h, habsent]

end Sys2Proof

namespace Sys2Proof.Machine

/-! ### A fetched word the hart rejects (R80, R82, R201) -/

theorem decode_fetchBytes (s : State) : decode s.fetchBytes = decodeWord s.fetchWord := rfl

/-- Whatever the reason of the rejection, the step is the illegal instruction's trap for the fetched word. -/
theorem step_illegalTrap_of_reject {s : State} (hf : Fetchable s) {why : DecodeReject}
    (h : s.cfg.decode s.fetchBytes = .reject why) :
    ∃ trap : Trap, step s = .fault (.illegalInstruction trap) ∧ IllegalTrap s.fetchWord s trap := by
  obtain ⟨hrun, halign, hadm⟩ := hf
  have hfetch : s.fetch = .trap (raise .illegalInstruction (illegalValueOf s.cfg s.fetchWord) s) := by
    simp [State.fetch, hrun, halign, hadm, h]
  exact ⟨_, by rw [step, hfetch]; rfl, rfl, rfl, illegalValueOf_eq_or s.cfg s.fetchWord, rfl⟩

/-- Settles O6: the fetched word is rejected as reserved. -/
theorem reservedWordRaisesIllegalInstruction : Obligations.ReservedWordRaisesIllegalInstruction := by
  intro s hf ho hno
  have hreject : decode s.fetchBytes = .reject .reservedCustom2 :=
    (decode_fetchBytes s).trans (decodeWord_reserved ho hno)
  exact step_illegalTrap_of_reject hf (Config.decode_of_reject hreject)

/-- Settles O8: the hart rejects the instruction as one of an absent sub-extension; the default has all four. -/
theorem absentSubextensionRaisesIllegalInstruction : Obligations.AbsentSubextensionRaisesIllegalInstruction :=
  ⟨fun _ _ hf h habsent => step_illegalTrap_of_reject hf (Config.decode_of_absent h habsent), fun i => by
    cases i <;> rfl⟩

end Sys2Proof.Machine

/-! The transposes: where each element goes (O24 to O29), when one is refused (O30), and the laws of R110: a transpose
undoes itself (O31), permutes the bytes (O32), keeps them over unit extents (O33), and looks at nothing but the
descriptor and the bytes of the tensor (O34). -/

namespace Sys2Proof.Machine

/-! ### The index a transposed byte comes from (R101) -/

/-- The source index of byte `j` of `XPOSE(_, D, a, b)`. -/
def xposeSource (D : Four) (a b : Dim) (j : Nat) : Nat := lin ((unlin j (D.swap a b)).swap a b) D

theorem xposeByte_eq (A : Tensor) (D : Four) (a b : Dim) (j : Nat) :
    xposeByte A D a b j = A.byte (xposeSource D a b j) := rfl

theorem inside_of_swap {c D : Four} {a b : Dim} (h : c.inside (D.swap a b) = true) :
    (c.swap a b).inside D = true := by
  simpa using swap_inside a b h

theorem xposeSource_lt {D : Four} (a b : Dim) {j : Nat} (h : j < D.count) : xposeSource D a b j < D.count :=
  lin_lt (inside_of_swap (unlin_inside ((swap_count a b D).symm ▸ h)))

/-- Going to the source index and from there on under the exchanged shape leads back. -/
theorem xposeSource_xposeSource {D : Four} (a b : Dim) {j : Nat} (h : j < D.count) :
    xposeSource (D.swap a b) a b (xposeSource D a b j) = j := by
  have hin := inside_of_swap (unlin_inside ((swap_count a b D).symm ▸ h))
  rw [xposeSource, xposeSource, swap_swap, unlin_lin hin, swap_swap, lin_unlin]

/-- The source indices of the bytes of a tensor are the indices of the tensor in another order. -/
theorem xposeSource_perm (D : Four) (a b : Dim) :
    ((List.range D.count).map (xposeSource D a b)).Perm (List.range D.count) := by
  have hnodup : ((List.range D.count).map (xposeSource D a b)).Nodup := by
    refine List.nodup_range.map_on fun i hi j hj hij => ?_
    rw [← xposeSource_xposeSource a b (List.mem_range.mp hi), hij,
      xposeSource_xposeSource a b (List.mem_range.mp hj)]
  have hsub : (List.range D.count).map (xposeSource D a b) ⊆ List.range D.count := by
    intro j hj
    obtain ⟨i, hi, rfl⟩ := List.mem_map.mp hj
    exact List.mem_range.mpr (xposeSource_lt a b (List.mem_range.mp hi))
  exact (hnodup.subperm hsub).perm_of_length_le (by simp)

/-! ### Unit extents -/

/-- What holds of every dimension holds of the four. -/
theorem Dim.forall_iff {P : Dim → Prop} : (∀ k, P k) ↔ P .dim0 ∧ P .dim1 ∧ P .dim2 ∧ P .dim3 :=
  ⟨fun h => ⟨h _, h _, h _, h _⟩, fun ⟨h0, h1, h2, h3⟩ k => by cases k <;> assumption⟩

/-- The coordinate at a dimension of extent 1 is 0. -/
theorem get_eq_zero_of_unit {c D : Four} (h : c.inside D = true) {k : Dim} (hk : D.get k = 1) : c.get k = 0 := by
  obtain ⟨h0, h1, h2, h3⟩ := (inside_iff c D).mp h
  cases k <;> simp only [Four.get] at hk ⊢ <;> omega

/-- What R110 (3) asks of a shape for the exchange of `a` and `b`. -/
def UnitExtents (D : Four) (a b : Dim) : Prop :=
  (D.get a = 1 ∧ D.get b = 1) ∨
    ((D.get a = 1 ∨ D.get b = 1) ∧ ∀ k : Dim, a.number < k.number → k.number < b.number → D.get k = 1)

/-- Exchanging two equal entries changes nothing. -/
theorem swap_eq_self {v : Four} {a b : Dim} (h : v.get a = v.get b) : v.swap a b = v := by
  have hget : ∀ k, v.get (Dim.swap a b k) = v.get k := by
    intro k
    unfold Dim.swap
    split_ifs with ha hb
    · rw [ha, h]
    · rw [hb, h]
    · rfl
  simp only [Four.swap, hget]
  rfl

/-- Moving a dimension of extent 1 past dimensions of extent 1 keeps the linear index: all their coordinates are 0. -/
theorem lin_swap_of_unit_run {p : (TReg → TReg → XReg → Instr) × Dim × Dim} (hp : p ∈ transposes) {c D : Four}
    (hc : c.inside D = true) (hend : D.get p.2.1 = 1 ∨ D.get p.2.2 = 1)
    (hbetween : ∀ k : Dim, p.2.1.number < k.number → k.number < p.2.2.number → D.get k = 1) :
    lin (c.swap p.2.1 p.2.2) (D.swap p.2.1 p.2.2) = lin c D := by
  have hzero : ∀ k, D.get k = 1 → c.get k = 0 := fun _ => get_eq_zero_of_unit hc
  simp only [Dim.forall_iff] at hbetween hzero
  simp only [transposes, List.mem_cons, List.not_mem_nil, or_false] at hp
  obtain rfl | rfl | rfl | rfl | rfl | rfl := hp
  all_goals
    simp only [Four.get, Dim.number] at hbetween hend hzero
    obtain hend | hend := hend
    all_goals simp [lin, Four.swap, Four.get, Dim.swap, hend, hbetween, hzero]

/-- The exchange of two dimensions over unit extents keeps the linear index of an element. -/
theorem lin_swap_of_unitExtents {p : (TReg → TReg → XReg → Instr) × Dim × Dim} (hp : p ∈ transposes) {c D : Four}
    (hc : c.inside D = true) (h : UnitExtents D p.2.1 p.2.2) :
    lin (c.swap p.2.1 p.2.2) (D.swap p.2.1 p.2.2) = lin c D := by
  obtain ⟨ha, hb⟩ | ⟨hend, hbetween⟩ := h
  · have hca := get_eq_zero_of_unit hc ha
    have hcb := get_eq_zero_of_unit hc hb
    rw [swap_eq_self (hca.trans hcb.symm), swap_eq_self (ha.trans hb.symm)]
  · exact lin_swap_of_unit_run hp hc hend hbetween

/-- So every byte comes from its own index. -/
theorem xposeSource_of_unitExtents {p : (TReg → TReg → XReg → Instr) × Dim × Dim} (hp : p ∈ transposes) {D : Four}
    (h : UnitExtents D p.2.1 p.2.2) {j : Nat} (hj : j < D.count) : xposeSource D p.2.1 p.2.2 j = j := by
  have hin := inside_of_swap (unlin_inside ((swap_count p.2.1 p.2.2 D).symm ▸ hj))
  rw [xposeSource, ← lin_swap_of_unitExtents hp hin h, swap_swap, lin_unlin]

/-! ### What a completed transpose leaves in `T[rd]` (R103) -/

/-- A completed transpose's byte below `N` is the source's at the index it comes from. -/
theorem xposeInsn_byte {a b : Dim} {rd rs1 : TReg} {rs2 : XReg} {s t : State}
    (h : xposeInsn a b rd rs1 rs2 s = .next t) {k : Nat} (hk : k < (shapeOf (s.readX32 rs2)).count) :
    Tensor.byte (t.readT rd) k = Tensor.byte (s.readT rs1) (xposeSource (shapeOf (s.readX32 rs2)) a b k) := by
  obtain ⟨hv, rfl⟩ := xposeInsn_next h
  obtain ⟨-, -, -, -, hN⟩ := (valid_iff _).mp hv
  simp [hk, lt_of_lt_of_le hk hN, xposeByte_eq]

/-- The same by coordinates: the element at `c` goes to the coordinates with `a` and `b` exchanged (R101). -/
theorem xposeInsn_element {a b : Dim} {rd rs1 : TReg} {rs2 : XReg} {s t : State}
    (h : xposeInsn a b rd rs1 rs2 s = .next t) {c : Four} (hc : c.inside (shapeOf (s.readX32 rs2)) = true) :
    Tensor.byte (t.readT rd) (lin (c.swap a b) ((shapeOf (s.readX32 rs2)).swap a b)) =
      Tensor.byte (s.readT rs1) (lin c (shapeOf (s.readX32 rs2))) := by
  rw [xposeInsn_byte h (swap_count a b _ ▸ lin_lt (swap_inside a b hc)), ← xposeByte_eq, xposeByte_lin _ a b hc]

/-- The bytes past the tensor are unassigned (R103). -/
theorem xposeInsn_byte_past {a b : Dim} {rd rs1 : TReg} {rs2 : XReg} {s t : State}
    (h : xposeInsn a b rd rs1 rs2 s = .next t) {n : Nat} (hn : (shapeOf (s.readX32 rs2)).count ≤ n)
    (hlt : n < 1024) : Tensor.byte (t.readT rd) n = s.unassignedByte rd n := by
  obtain ⟨-, rfl⟩ := xposeInsn_next h
  simp [hlt, Nat.not_lt.mpr hn]

/-- Everything `XPOSE_INSN` does, in the terms of R102, R103 and the element forms of R104 to R109. -/
theorem xposeInsn_swapsDimensions (a b : Dim) (rd rs1 : TReg) (rs2 : XReg) (s : State) :
    let D := shapeOf (s.readX32 rs2)
    (D.valid = true → ∃ t, xposeInsn a b rd rs1 rs2 s = .next t ∧
      (∀ i j k l, i < D.d0 → j < D.d1 → k < D.d2 → l < D.d3 →
        Tensor.byte (t.readT rd) (lin (Four.swap a b ⟨i, j, k, l⟩) (D.swap a b)) =
          Tensor.byte (s.readT rs1) (lin ⟨i, j, k, l⟩ D)) ∧
      (∀ n, D.count ≤ n → n < 1024 → Tensor.byte (t.readT rd) n = s.unassignedByte rd n) ∧
      OnlyTensor rd s t ∧ t.events = s.events ∧ Advanced s t) ∧
    (D.valid = false → xposeInsn a b rd rs1 rs2 s = .refused (.invalidDescriptor (s.readX32 rs2))) := by
  refine ⟨fun hv => ?_, fun hv => xposeInsn_invalid a b rd rs1 rs2 s (by simp [hv])⟩
  have h := xposeInsn_valid a b rd rs1 rs2 s hv
  exact ⟨_, h, fun i j k l hi hj hk hl => xposeInsn_element h ((inside_iff _ _).mpr ⟨hi, hj, hk, hl⟩),
    fun n => xposeInsn_byte_past h, onlyTensor_write rd _ _ s, rfl, rfl⟩

/-! ### The six transposes (R104 to R109) -/

/-- Settles O24: `lin` of the coordinates with 0 and 1 exchanged is the element form of the rule. -/
theorem xpose01SwapsDimensions : Obligations.Xpose01SwapsDimensions := fun rd rs1 rs2 s =>
  ⟨encodeR_mask _ _ _ _ _ _, xposeInsn_swapsDimensions .dim0 .dim1 rd rs1 rs2 s⟩

/-- Settles O25: `lin` of the coordinates with 0 and 2 exchanged is the element form of the rule. -/
theorem xpose02SwapsDimensions : Obligations.Xpose02SwapsDimensions := fun rd rs1 rs2 s =>
  ⟨encodeR_mask _ _ _ _ _ _, xposeInsn_swapsDimensions .dim0 .dim2 rd rs1 rs2 s⟩

/-- Settles O26: `lin` of the coordinates with 0 and 3 exchanged is the element form of the rule. -/
theorem xpose03SwapsDimensions : Obligations.Xpose03SwapsDimensions := fun rd rs1 rs2 s =>
  ⟨encodeR_mask _ _ _ _ _ _, xposeInsn_swapsDimensions .dim0 .dim3 rd rs1 rs2 s⟩

/-- Settles O27: `lin` of the coordinates with 1 and 2 exchanged is the element form of the rule. -/
theorem xpose12SwapsDimensions : Obligations.Xpose12SwapsDimensions := fun rd rs1 rs2 s =>
  ⟨encodeR_mask _ _ _ _ _ _, xposeInsn_swapsDimensions .dim1 .dim2 rd rs1 rs2 s⟩

/-- Settles O28: `lin` of the coordinates with 1 and 3 exchanged is the element form of the rule. -/
theorem xpose13SwapsDimensions : Obligations.Xpose13SwapsDimensions := fun rd rs1 rs2 s =>
  ⟨encodeR_mask _ _ _ _ _ _, xposeInsn_swapsDimensions .dim1 .dim3 rd rs1 rs2 s⟩

/-- Settles O29: `lin` of the coordinates with 2 and 3 exchanged is the element form of the rule. -/
theorem xpose23SwapsDimensions : Obligations.Xpose23SwapsDimensions := fun rd rs1 rs2 s =>
  ⟨encodeR_mask _ _ _ _ _ _, xposeInsn_swapsDimensions .dim2 .dim3 rd rs1 rs2 s⟩

/-! ### An invalid descriptor (R102) -/

/-- A shape with an extent of 0 or with more than 1024 elements is not valid (R18). -/
theorem not_valid_of {D : Four} (h : D.d0 = 0 ∨ D.d1 = 0 ∨ D.d2 = 0 ∨ D.d3 = 0 ∨ 1024 < D.d0 * D.d1 * D.d2 * D.d3) :
    ¬ D.valid = true := by
  rw [valid_iff, Four.count]
  omega

/-- Settles O30; `x0` holds the descriptor whose extents are all 0. -/
theorem transposeOfInvalidDescriptorIsRefused : Obligations.TransposeOfInvalidDescriptorIsRefused := by
  intro p hp rd rs1 s
  simp only [exec_transposes hp]
  exact ⟨fun rs2 h => xposeInsn_invalid _ _ rd rs1 rs2 s (not_valid_of h),
    xposeInsn_invalid _ _ rd rs1 0 s (not_valid_of (.inl rfl))⟩

/-! ### The laws of R110 -/

/-- Settles O31: the second transpose takes each byte from where the first one put it. -/
theorem transposeTwiceIsTheSource : Obligations.TransposeTwiceIsTheSource := by
  intro p hp rd rs1 rd' rs2 rs2' s t u ht hu hshape k hk
  rw [exec_transposes hp] at ht hu
  set D := shapeOf (s.readX32 rs2)
  have hk' : k < (D.swap p.2.1 p.2.2).count := (swap_count p.2.1 p.2.2 D).symm ▸ hk
  have hsrc : xposeSource (D.swap p.2.1 p.2.2) p.2.1 p.2.2 k < D.count :=
    swap_count p.2.1 p.2.2 D ▸ xposeSource_lt p.2.1 p.2.2 hk'
  have hback : xposeSource D p.2.1 p.2.2 (xposeSource (D.swap p.2.1 p.2.2) p.2.1 p.2.2 k) = k := by
    simpa using xposeSource_xposeSource p.2.1 p.2.2 hk'
  rw [xposeInsn_byte hu (hshape ▸ hk'), hshape, xposeInsn_byte ht hsrc, hback]

/-- Settles O32: the transposed bytes are the source's bytes at the indices of the tensor in another order. -/
theorem transposePermutesTheBytes : Obligations.TransposePermutesTheBytes := by
  intro p hp rd rs1 rs2 s t ht
  rw [exec_transposes hp] at ht
  have hbytes : (List.range (shapeOf (s.readX32 rs2)).count).map (Tensor.byte (t.readT rd)) =
      ((List.range (shapeOf (s.readX32 rs2)).count).map (xposeSource (shapeOf (s.readX32 rs2)) p.2.1 p.2.2)).map
        (Tensor.byte (s.readT rs1)) := by
    rw [List.map_map]
    exact List.map_congr_left fun k hk => xposeInsn_byte ht (List.mem_range.mp hk)
  rw [hbytes]
  exact (xposeSource_perm _ p.2.1 p.2.2).map _

/-- Settles O33: over unit extents every byte comes from its own index. -/
theorem transposeOfUnitExtentsKeepsTheBytes : Obligations.TransposeOfUnitExtentsKeepsTheBytes := by
  intro p hp rd rs1 rs2 s t ht D hunit n hn
  rw [exec_transposes hp] at ht
  rw [xposeInsn_byte ht hn, xposeSource_of_unitExtents hp hunit hn]

/-- Settles O34: each byte comes from an index the descriptor alone decides, and that index is one of the tensor's. -/
theorem transposeDependsOnTensorAndDescriptorOnly : Obligations.TransposeDependsOnTensorAndDescriptorOnly := by
  intro p hp rd rs1 rs2 s s' t t' ht ht' hdesc hsame n hn
  rw [exec_transposes hp] at ht ht'
  rw [xposeInsn_byte ht' (hdesc ▸ hn), hdesc, xposeInsn_byte ht hn, hsame _ (xposeSource_lt p.2.1 p.2.2 hn)]

end Sys2Proof.Machine

/-! The concatenations: where each valid element goes and what the rest of `T[rd]` holds under the literal reading
(O35), and what they do under every reading (O36). -/

namespace Sys2Proof.Machine

/-! ### Where an element stands among the collected ones (R120, R121) -/

/-- An index that passes a filter of the indices below `n` stands at the place that counts those before it. -/
theorem getElem?_filter_range {p : Nat → Bool} {n i : Nat} (hi : i < n) (hp : p i = true) :
    ((List.range n).filter p)[(List.range i).countP p]? = some i := by
  induction n with
  | zero => omega
  | succ n ih =>
    rw [List.range_succ, List.filter_append]
    obtain hlt | rfl := Nat.lt_succ_iff_lt_or_eq.mp hi
    · obtain ⟨hplace, -⟩ := List.getElem?_eq_some_iff.mp (ih hlt)
      rw [List.getElem?_append_left hplace, ih hlt]
    · simp [List.countP_eq_length_filter, hp]

/-- The valid element `i` is collected at the place that counts the set bits below `i`. -/
theorem collect_getElem? {mask : Word32} (A : Tensor) {i : Nat} (hi : i < 32) (hm : mask.getLsbD i = true) :
    (collect mask A)[setBitsBelow mask i]? = some (A.byte i) := by
  rw [collect, setBitsBelow, List.getElem?_map, getElem?_filter_range (p := mask.getLsbD) hi hm, Option.map_some]

/-- A valid element's place is one of the collected ones. -/
theorem setBitsBelow_lt {mask : Word32} {i : Nat} (hi : i < 32) (hm : mask.getLsbD i = true) :
    setBitsBelow mask i < setBitsBelow mask 32 := by
  obtain ⟨hplace, -⟩ := List.getElem?_eq_some_iff.mp (collect_getElem? (Vector.replicate 1024 0) hi hm)
  rwa [collect_length] at hplace

theorem setBitsBelow_le (mask : Word32) (i : Nat) : setBitsBelow mask i ≤ i := by
  simpa [setBitsBelow] using List.countP_le_length (p := mask.getLsbD) (l := List.range i)

/-! ### The bytes `CONCAT_INSN` leaves in `T[rd]` -/

/-- Under the literal reading byte `k` is the `k`-th collected one, or unassigned where there is none (R121). -/
theorem concatInsn_literal_byte {rd rs1 rs2 : TReg} {s t : State} (h : concatInsn rd rs1 rs2 s = .next t)
    (hl : s.cfg.concat = .literal) {k : Nat} (hk : k < 1024) :
    Tensor.byte (t.readT rd) k =
      ((collect s.mask1 (s.readT rs1) ++ collect s.mask2 (s.readT rs2))[k]?).getD (s.unassignedByte rd k) := by
  rw [next_of_eq h]
  simp [hl, concatData, hk]

/-- The valid elements of `T[rs1]` come first. -/
theorem concatInsn_first {rd rs1 rs2 : TReg} {s t : State} (h : concatInsn rd rs1 rs2 s = .next t)
    (hl : s.cfg.concat = .literal) {i : Nat} (hi : i < 32) (hm : s.mask1.getLsbD i = true) :
    Tensor.byte (t.readT rd) (setBitsBelow s.mask1 i) = Tensor.byte (s.readT rs1) i := by
  have hplace := setBitsBelow_lt hi hm
  have hbound := setBitsBelow_le s.mask1 32
  rw [concatInsn_literal_byte h hl (by omega), List.getElem?_append_left (by rwa [collect_length]),
    collect_getElem? _ hi hm, Option.getD_some]

/-- The valid elements of `T[rs2]` follow all of `T[rs1]`'s. -/
theorem concatInsn_second {rd rs1 rs2 : TReg} {s t : State} (h : concatInsn rd rs1 rs2 s = .next t)
    (hl : s.cfg.concat = .literal) {i : Nat} (hi : i < 32) (hm : s.mask2.getLsbD i = true) :
    Tensor.byte (t.readT rd) (setBitsBelow s.mask1 32 + setBitsBelow s.mask2 i) = Tensor.byte (s.readT rs2) i := by
  have hbound1 := setBitsBelow_le s.mask1 32
  have hbound2 := setBitsBelow_le s.mask2 i
  rw [concatInsn_literal_byte h hl (by omega), List.getElem?_append_right (by rw [collect_length]; omega),
    collect_length, Nat.add_sub_cancel_left, collect_getElem? _ hi hm, Option.getD_some]

/-- The bytes past the collected ones are unassigned. -/
theorem concatInsn_byte_past {rd rs1 rs2 : TReg} {s t : State} (h : concatInsn rd rs1 rs2 s = .next t)
    (hl : s.cfg.concat = .literal) {k : Nat} (hk : setBitsBelow s.mask1 32 + setBitsBelow s.mask2 32 ≤ k)
    (hlt : k < 1024) : Tensor.byte (t.readT rd) k = s.unassignedByte rd k := by
  rw [concatInsn_literal_byte h hl hlt, List.getElem?_eq_none (by simpa [collect_length] using hk), Option.getD_none]

/-- Under the reading without stated data every byte is a free draw (R125, R16). -/
theorem concatInsn_unstated_byte {rd rs1 rs2 : TReg} {s t : State} (h : concatInsn rd rs1 rs2 s = .next t)
    (hu : s.cfg.concat = .unstated) {n : Nat} (hn : n < 1024) :
    Tensor.byte (t.readT rd) n = Config.freeByte (s.draws + n) := by
  rw [next_of_eq h]
  simp [hu, concatData, hn, State.anyByte]

/-! ### The statements -/

/-- `CONCAT_INSN` completes under every reading, writes `T[rd]`, spends 1024 draws and advances. -/
theorem concatInsn_completes (rd rs1 rs2 : TReg) (s : State) : ∃ t, concatInsn rd rs1 rs2 s = .next t ∧
    OnlyTensor rd s t ∧ t.events = s.events ∧ Advanced s t ∧ t.draws = s.draws + 1024 :=
  ⟨_, rfl, onlyTensor_write rd _ 1024 s, rfl, rfl, rfl⟩

/-- Settles O35: the bytes of `T[rd]` are the collected ones, and an element's place among them is the number of mask
bits below it. -/
theorem concatPacksValidElements : Obligations.ConcatPacksValidElements := by
  refine ⟨fun rd rs1 rs2 => ⟨encodeR_mask _ _ _ _ _ _, encodeR_mask _ _ _ _ _ _, encodeR_mask _ _ _ _ _ _⟩, ?_⟩
  intro op hop rd rs1 rs2 s hl
  obtain ⟨t, h, hframe, hevents, hpc, -⟩ := concatInsn_completes rd rs1 rs2 s
  rw [exec_concats hop]
  exact ⟨t, h, fun _ => concatInsn_first h hl, fun _ => concatInsn_second h hl, fun _ => concatInsn_byte_past h hl,
    hframe, hevents, hpc⟩

/-- Settles O36: completion and frame do not look at the reading. -/
theorem concatAlwaysCompletes : Obligations.ConcatAlwaysCompletes := by
  intro op hop rd rs1 rs2 s
  obtain ⟨t, h, hframe, hevents, hpc, hdraws⟩ := concatInsn_completes rd rs1 rs2 s
  rw [exec_concats hop]
  exact ⟨t, h, hframe, hevents, hpc, hdraws, fun hu _ => concatInsn_unstated_byte h hu⟩

end Sys2Proof.Machine

/-! The saturating add of `tl.addi`: its byte-wise meaning (O37) and its extreme immediates (O38). -/

namespace Sys2Proof.Machine

/-! ### One lane of `tl.addi` (R140) -/

/-- Between ordered bounds the clamp is the nearer bound or the value itself (R12). -/
theorem clamp_eq_max_min {v lo hi : Int} (h : lo ≤ hi) : clamp v lo hi = max lo (min hi v) := by
  unfold clamp
  split_ifs <;> omega

/-- The lane as an unsigned number: the clamp leaves it in 0..255, so that no bit is lost. -/
theorem saturatingAdd_toNat (b : Byte) (imm : BitVec 12) :
    ((saturatingAdd b imm).toNat : Int) = max 0 (min 255 (b.toNat + imm.toInt)) := by
  rw [saturatingAdd, clamp_eq_max_min (by decide), BitVec.toNat_ofInt]
  omega

@[simp] theorem saturatingAdd_zero (b : Byte) : saturatingAdd b 0#12 = b := by
  have h := saturatingAdd_toNat b 0#12
  rw [BitVec.toInt_zero] at h
  exact BitVec.eq_of_toNat_eq (by omega)

theorem saturatingAdd_of_255_le (b : Byte) {imm : BitVec 12} (h : 255 ≤ imm.toInt) : saturatingAdd b imm = 255 := by
  have := saturatingAdd_toNat b imm
  exact BitVec.eq_of_toNat_eq (by simp only [BitVec.reduceToNat]; omega)

theorem saturatingAdd_of_le_neg_255 (b : Byte) {imm : BitVec 12} (h : imm.toInt ≤ -255) :
    saturatingAdd b imm = 0 := by
  have := saturatingAdd_toNat b imm
  exact BitVec.eq_of_toNat_eq (by simp only [BitVec.reduceToNat]; omega)

/-! ### The instruction -/

/-- Every byte `tl.addi` leaves in `T[rd]` is the lane of the source's byte, `rd = rs1` or not (R140). -/
theorem tlAddi_byte {rd rs1 : TReg} {imm : BitVec 12} {s t : State} (h : exec (.tlAddi rd rs1 imm) s = .next t)
    {k : Nat} (hk : k < 1024) :
    Tensor.byte (t.readT rd) k = saturatingAdd (Tensor.byte (s.readT rs1) k) imm := by
  rw [next_of_eq h]
  simp [hk]

/-- `tl.addi` completes, writes `T[rd]` alone, records nothing and advances. -/
theorem tlAddi_completes (rd rs1 : TReg) (imm : BitVec 12) (s : State) :
    ∃ t, exec (.tlAddi rd rs1 imm) s = .next t ∧ OnlyTensor rd s t ∧ t.events = s.events ∧ Advanced s t :=
  ⟨_, rfl, onlyTensor_write rd _ 0 s, rfl, rfl⟩

/-- Settles O37: the bytes of `T[rd]` are the lanes, and a lane is the clamped sum over the integers. -/
theorem tlAddiSaturatesEveryByte : Obligations.TlAddiSaturatesEveryByte := by
  intro rd rs1 imm s
  obtain ⟨t, h, hframe⟩ := tlAddi_completes rd rs1 imm s
  refine ⟨encodeI_mask _ _ _ _ _, t, h, fun k hk => ?_, hframe⟩
  rw [tlAddi_byte h hk, saturatingAdd_toNat]

/-- Settles O38, lane by lane. -/
theorem tlAddiExtremes : Obligations.TlAddiExtremes := by
  intro rd rs1 imm s t h
  refine ⟨?copy, fun himm k hk => ?fill, fun himm k hk => ?clear⟩
  case copy =>
    rintro rfl
    exact tensor_ext fun k hk => (tlAddi_byte h hk).trans (saturatingAdd_zero _)
  case fill => rw [tlAddi_byte h hk, saturatingAdd_of_255_le _ himm]
  case clear => rw [tlAddi_byte h hk, saturatingAdd_of_le_neg_255 _ himm]

end Sys2Proof.Machine

/-! The masked load and store: what a completed `tl.mload` leaves in `T[rd]` and a completed `tl.mstore` in memory
(O39, O41), what a faulting one leaves (O40, O42), when one is refused (O43), and the laws of R157: a load gives back what
a store put there (O46), and with every slice selected both are plain copies (O47). -/

namespace Sys2Proof.Machine

/-! ### The judgement over the selected addresses (R154; assumption log 18) -/

theorem selectedAddress_of_mem {c : Config} {D : Four} {m : Word32} {base : Word} (hv : D.valid = true) {a : Access}
    (ha : a ∈ accessesOf c D m base) : SelectedAddress c D m base a.address :=
  (selectedAddress_iff c m base (sliceSize_pos hv) _).mpr ⟨a, ha, rfl⟩

/-- Where every selected address is admitted and idempotent, and none of a store is program text, the judgement is to make
the accesses. -/
theorem checkAccesses_of_allAdmitted {s : State} {kind : AccessKind} {D : Four} {m : Word32} {base : Word}
    (hv : D.valid = true) (hadm : AllAdmitted s.cfg kind D m base) (htext : kind = .write → NoText s D m base) :
    checkAccesses s kind (accessesOf s.cfg D m base) = .admitted := by
  refine checkAccesses_admitted fun a ha => ?_
  have hsel := selectedAddress_of_mem hv ha
  obtain ⟨hadmitted, hidem⟩ := hadm _ hsel
  exact ⟨hadmitted, hidem, fun hk => htext hk _ hsel⟩

/-- Where no access is refused and some selected address is not admitted, the judgement is a fault, and the address
reported is a selected one that is not admitted. -/
theorem checkAccesses_of_unadmitted {s : State} {kind : AccessKind} {D : Four} {m : Word32} {base : Word}
    (hv : D.valid = true)
    (hok : ∀ x, SelectedAddress s.cfg D m base x → admitsData s.cfg kind x = true →
      isIdempotent s.cfg x = true ∧ (kind = .write → inProgramText s x = false))
    (hbad : ∃ x, SelectedAddress s.cfg D m base x ∧ admitsData s.cfg kind x = false) :
    ∃ bad, checkAccesses s kind (accessesOf s.cfg D m base) = .notAdmitted bad ∧
      ∃ x, SelectedAddress s.cfg D m base x ∧ admitsData s.cfg kind x = false ∧
        reportedAddress s bad = BitVec.ofNat 64 x := by
  obtain ⟨bad, hcheck, hne, hmem⟩ := checkAccesses_notAdmitted
    (fun a ha => hok _ (selectedAddress_of_mem hv ha)) ((exists_selectedAddress_iff s.cfg m base hv _).mp hbad)
  obtain ⟨a, ha, hreported⟩ := reportedAddress_mem s hne
  obtain ⟨hacc, hnot⟩ := hmem a ha
  exact ⟨bad, hcheck, _, selectedAddress_of_mem hv hacc, hnot, hreported⟩

/-! ### How a tensor memory instruction ends (R153, R154) -/

theorem exec_tlMload_of_invalid {rd : TReg} {rs1 rs2 : XReg} {s : State}
    (hv : ¬ (shapeOf (s.readX32 rs1)).valid = true) :
    exec (.tlMload rd rs1 rs2) s = .refused (.invalidDescriptor (s.readX32 rs1)) := if_neg hv

theorem exec_tlMstore_of_invalid {rs1 : TReg} {rs2 rd : XReg} {s : State}
    (hv : ¬ (shapeOf (s.readX32 rd)).valid = true) :
    exec (.tlMstore rs1 rs2 rd) s = .refused (.invalidDescriptor (s.readX32 rd)) := if_neg hv

theorem exec_tlMload_of_notAdmitted {rd : TReg} {rs1 rs2 : XReg} {s : State} {bad : List Access}
    (hv : (shapeOf (s.readX32 rs1)).valid = true)
    (hc : checkAccesses s .read (accessesOf s.cfg (shapeOf (s.readX32 rs1)) s.loadMask (s.readX rs2)) =
      .notAdmitted bad) :
    exec (.tlMload rd rs1 rs2) s = .fault (raise .loadAccessFault (reportedAddress s bad)
      (loadFaulted rd (accessesOf s.cfg (shapeOf (s.readX32 rs1)) s.loadMask (s.readX rs2)) s)) := by
  simp [exec, execTlMload, hv, hc]

theorem exec_tlMstore_of_notAdmitted {rs1 : TReg} {rs2 rd : XReg} {s : State} {bad : List Access}
    (hv : (shapeOf (s.readX32 rd)).valid = true)
    (hc : checkAccesses s .write (accessesOf s.cfg (shapeOf (s.readX32 rd)) s.storeMask (s.readX rs2)) =
      .notAdmitted bad) :
    exec (.tlMstore rs1 rs2 rd) s = .fault (raise .storeAccessFault (reportedAddress s bad)
      ((stored (storeCells (s.readT rs1) (partialAccesses s .write
        (accessesOf s.cfg (shapeOf (s.readX32 rd)) s.storeMask (s.readX rs2)))) s).drew 1024)) := by
  simp [exec, execTlMstore, hv, hc]

/-- Settles O43; `x0` holds the descriptor whose extents are all 0. -/
theorem memoryAccessOfInvalidDescriptorIsRefused : Obligations.MemoryAccessOfInvalidDescriptorIsRefused := by
  refine fun s => ⟨fun t d b h => ?_, fun t b => ?_⟩
  · exact ⟨exec_tlMload_of_invalid (not_valid_of h), exec_tlMstore_of_invalid (not_valid_of h)⟩
  · have hzero : ¬ (shapeOf (s.readX32 0)).valid = true := not_valid_of (.inl rfl)
    exact ⟨exec_tlMload_of_invalid hzero, exec_tlMstore_of_invalid hzero⟩

/-! ### The accesses by the index of their element -/

theorem selects_iff (m : Word32) (i : Nat) : selects m i = true ↔ i < 32 ∧ m.getLsbD i = true := by
  simp [selects]

theorem accessed_lt_count {D : Four} {m : Word32} {e : Nat} (h : accessed D m e = true) : e < D.count := by
  simp only [accessed, Bool.and_eq_true, decide_eq_true_eq] at h
  exact h.1

/-- Every accessed element has its access. -/
theorem mem_accessesOf_of_accessed (c : Config) {D : Four} {m : Word32} (base : Word) {e : Nat}
    (h : accessed D m e = true) : ⟨e, indexAddress c D m base e⟩ ∈ accessesOf c D m base :=
  List.mem_map.mpr ⟨e, List.mem_filter.mpr ⟨List.mem_range.mpr (accessed_lt_count h), h⟩, rfl⟩

/-- A faulting instruction makes only admitted ones of its accesses (R154). -/
theorem mem_partialAccesses {s : State} {kind : AccessKind} {acc : List Access} {a : Access}
    (h : a ∈ partialAccesses s kind acc) : a ∈ acc ∧ admitsData s.cfg kind a.address = true := by
  obtain ⟨hacc, hmade⟩ := List.mem_filter.mp h
  exact ⟨hacc, (Bool.and_eq_true_iff.mp hmade).1⟩

/-! ### The load (R155) -/

/-- What a load does before it advances, completed or not: it records, writes `T[rd]` and spends draws. -/
theorem onlyTensor_recordWrite (rd : TReg) (cells : List Host.Cell) (A : Tensor) (n : Nat) (s : State) :
    OnlyTensor rd s (((s.record .read cells).writeT rd A).drew n) where
  keepsX r := by simp
  keepsT r hr := by simp [readT_writeT_other _ rd r A hr]
  keepsCsrs c := by simp
  keepsMem a := by simp
  keepsCfg := by simp

theorem OnlyTensor.advancePc {rd : TReg} {s t : State} (h : OnlyTensor rd s t) : OnlyTensor rd s t.advancePc where
  keepsX := h.keepsX
  keepsT := h.keepsT
  keepsCsrs c := (advancePc_csr t c).trans (h.keepsCsrs c)
  keepsMem := h.keepsMem
  keepsCfg := h.keepsCfg

/-- A completed load leaves in `T[rd]` each accessed element's byte of memory. -/
theorem tlMload_byte {rd : TReg} {rs1 rs2 : XReg} {s t : State} (h : exec (.tlMload rd rs1 rs2) s = .next t) {e : Nat}
    (he : accessed (shapeOf (s.readX32 rs1)) s.loadMask e = true) :
    Tensor.byte (t.readT rd) e =
      s.mem.read (indexAddress s.cfg (shapeOf (s.readX32 rs1)) s.loadMask (s.readX rs2) e) := by
  obtain ⟨hv, rfl⟩ := execTlMload_next h
  obtain ⟨-, -, -, -, hN⟩ := (valid_iff _).mp hv
  simp [loaded, he, lt_of_lt_of_le (accessed_lt_count he) hN]

/-- A completed load leaves every other byte of `T[rd]` unassigned. -/
theorem tlMload_byte_unaccessed {rd : TReg} {rs1 rs2 : XReg} {s t : State} (h : exec (.tlMload rd rs1 rs2) s = .next t)
    {e : Nat} (hlt : e < 1024) (he : accessed (shapeOf (s.readX32 rs1)) s.loadMask e = false) :
    Tensor.byte (t.readT rd) e = s.unassignedByte rd e := by
  obtain ⟨-, rfl⟩ := execTlMload_next h
  simp [loaded, hlt, he]

/-- Slice by slice: a selected one comes from memory, any other is unassigned (R151, R152). -/
theorem tlMload_slice_byte {rd : TReg} {rs1 rs2 : XReg} {s t : State} (h : exec (.tlMload rd rs1 rs2) s = .next t)
    {i k : Nat} (hi : i < (shapeOf (s.readX32 rs1)).d0) (hk : k < (shapeOf (s.readX32 rs1)).sliceSize) :
    Tensor.byte (t.readT rd) (i * (shapeOf (s.readX32 rs1)).sliceSize + k) =
      if i < 32 ∧ s.loadMask.getLsbD i = true then
        s.mem.read (elementAddress s.cfg (shapeOf (s.readX32 rs1)) s.loadMask (s.readX rs2) i k)
      else s.unassignedByte rd (i * (shapeOf (s.readX32 rs1)).sliceSize + k) := by
  have hacc := accessed_slice s.loadMask hi hk
  simp only [← selects_iff]
  split
  case isTrue hsel => rw [tlMload_byte h (hacc.trans hsel), indexAddress_slice _ _ _ _ hk]
  case isFalse hsel =>
    obtain ⟨-, -, -, -, hN⟩ := (valid_iff _).mp (execTlMload_next h).1
    exact tlMload_byte_unaccessed h (lt_of_lt_of_le (slice_lt hi hk) hN) (hacc.trans (Bool.eq_false_iff.mpr hsel))

/-- A faulting load records admitted selected addresses, each with the byte there (R67, R154). -/
theorem loadFaulted_recordedWithin {D : Four} (rd : TReg) (base : Word) (s : State) (hv : D.valid = true) :
    RecordedWithin .read (fun c => SelectedAddress s.cfg D s.loadMask base c.1 ∧
      admitsData s.cfg .read c.1 = true ∧ c.2 = s.mem.read c.1) s
      (loadFaulted rd (accessesOf s.cfg D s.loadMask base) s) := by
  refine ⟨_, rfl, cellSet_rising _, fun c hc => ?_⟩
  obtain ⟨a, ha, rfl⟩ := List.mem_map.mp (mem_of_mem_cellSet hc)
  obtain ⟨hacc, hadm⟩ := mem_partialAccesses ha
  exact ⟨selectedAddress_of_mem hv hacc, hadm, rfl⟩

/-- Settles O40: the judgement is a fault, and the state at the fault is `loadFaulted`. -/
theorem mloadFaultsOnUnadmittedAddress : Obligations.MloadFaultsOnUnadmittedAddress := by
  intro rd rs1 rs2 s D base hv hidem hbad
  obtain ⟨bad, hcheck, hreported⟩ := checkAccesses_of_unadmitted (kind := .read) hv
    (fun a ha hadm => ⟨hidem a ha hadm, nofun⟩) hbad
  exact ⟨_, exec_tlMload_of_notAdmitted hv hcheck, rfl, rfl, hreported, onlyTensor_recordWrite rd _ _ _ s, rfl,
    fun k hk => by simp [loadFaulted, hk, State.anyByte], rfl, loadFaulted_recordedWithin rd base s hv⟩

/-- Settles O39: the accesses are judged admitted, and the bytes are those of the completed load. -/
theorem mloadLoadsSelectedSlices : Obligations.MloadLoadsSelectedSlices := by
  intro rd rs1 rs2 s D base Selected
  refine ⟨encodeR_mask _ _ _ _ _ _, fun hv hadm => ?completes, fun hv => ?refused, fun hv hidem hbad => ?faults⟩
  case completes =>
    have hcheck := checkAccesses_of_allAdmitted hv hadm nofun
    have h : exec (.tlMload rd rs1 rs2) s = .next (loaded rd D base s) :=
      execTlMload_eq_next_iff.mpr ⟨hv, hcheck, rfl⟩
    exact ⟨_, h, fun _ _ => tlMload_slice_byte h,
      fun n hn hlt => tlMload_byte_unaccessed h hlt (accessed_of_count_le _ hn),
      (onlyTensor_recordWrite rd _ _ _ s).advancePc, rfl⟩
  case refused => exact exec_tlMload_of_invalid (Bool.eq_false_iff.mp hv)
  case faults =>
    obtain ⟨trap, hfault, -, -, ⟨a, hsel, hnot, hvalue⟩, -⟩ :=
      mloadFaultsOnUnadmittedAddress rd rs1 rs2 s hv (fun a ha _ => hidem a ha) hbad
    exact ⟨trap, a, hfault, hsel, hnot, hvalue⟩

/-! ### The store (R156) -/

@[simp] theorem stored_readX (cells : List Host.Cell) (s : State) (r : XReg) : (stored cells s).readX r = s.readX r := rfl

@[simp] theorem stored_readT (cells : List Host.Cell) (s : State) (r : TReg) : (stored cells s).readT r = s.readT r := rfl

/-- Some stores change memory at their own addresses alone, and no register. -/
theorem onlyMemory_stored {P : Nat → Prop} {cells : List Host.Cell} {s : State} (hm : Memory.wf s.mem = true)
    (hP : ∀ c ∈ cells, P c.1) : OnlyMemory P s (stored cells s) where
  keepsX r := by simp
  keepsT r := by simp
  keepsCsrs c := by simp
  keepsMem a ha := read_writeAll_other s.mem cells a (fun c hc e => ha (e ▸ hP c hc)) hm
  keepsCfg := rfl

theorem OnlyMemory.advancePc {P : Nat → Prop} {s t : State} (h : OnlyMemory P s t) : OnlyMemory P s t.advancePc where
  keepsX := h.keepsX
  keepsT := h.keepsT
  keepsCsrs c := (advancePc_csr t c).trans (h.keepsCsrs c)
  keepsMem := h.keepsMem
  keepsCfg := h.keepsCfg

theorem OnlyMemory.drew {P : Nat → Prop} {s t : State} (h : OnlyMemory P s t) (n : Nat) :
    OnlyMemory P s (t.drew n) where
  keepsX := h.keepsX
  keepsT := h.keepsT
  keepsCsrs c := (drew_csr t n c).trans (h.keepsCsrs c)
  keepsMem := h.keepsMem
  keepsCfg := h.keepsCfg

/-- A completed store leaves each accessed element's byte in memory. -/
theorem tlMstore_byte {rs1 : TReg} {rs2 rd : XReg} {s t : State} (h : exec (.tlMstore rs1 rs2 rd) s = .next t)
    (hm : Memory.wf s.mem = true) {e : Nat} (he : accessed (shapeOf (s.readX32 rd)) s.storeMask e = true) :
    t.mem.read (indexAddress s.cfg (shapeOf (s.readX32 rd)) s.storeMask (s.readX rs2) e) =
      Tensor.byte (s.readT rs1) e := by
  obtain ⟨hv, rfl⟩ := execTlMstore_next h
  exact read_storeCells _ hm hv (mem_accessesOf_of_accessed s.cfg (s.readX rs2) he)

/-- A completed store changes memory at the selected addresses alone, and no register. -/
theorem tlMstore_onlyMemory {rs1 : TReg} {rs2 rd : XReg} {s t : State} (h : exec (.tlMstore rs1 rs2 rd) s = .next t)
    (hm : Memory.wf s.mem = true) :
    OnlyMemory (SelectedAddress s.cfg (shapeOf (s.readX32 rd)) s.storeMask (s.readX rs2)) s t := by
  obtain ⟨hv, rfl⟩ := execTlMstore_next h
  refine (onlyMemory_stored hm fun c hc => ?_).advancePc
  obtain ⟨a, ha, rfl⟩ := List.mem_map.mp hc
  exact selectedAddress_of_mem hv ha

/-- The stores of a faulting instruction go to admitted selected addresses. -/
theorem storeCells_partial_selected {s : State} {D : Four} {m : Word32} {base : Word} (hv : D.valid = true) (A : Tensor)
    {c : Host.Cell} (hc : c ∈ storeCells A (partialAccesses s .write (accessesOf s.cfg D m base))) :
    SelectedAddress s.cfg D m base c.1 ∧ admitsData s.cfg .write c.1 = true := by
  obtain ⟨a, ha, rfl⟩ := List.mem_map.mp hc
  obtain ⟨hacc, hadm⟩ := mem_partialAccesses ha
  exact ⟨selectedAddress_of_mem hv hacc, hadm⟩

/-- The stores of a faulting instruction go to different addresses. -/
theorem storeCells_partial_distinct {s : State} {D : Four} {m : Word32} {base : Word} (hv : D.valid = true) (A : Tensor) :
    (storeCells A (partialAccesses s .write (accessesOf s.cfg D m base))).Pairwise fun c d => c.1 ≠ d.1 :=
  List.pairwise_map.mpr ((accesses_distinct s.cfg m base hv).filter _)

/-- After the stores of a faulting instruction memory holds what each of them stored. -/
theorem read_storeCells_partial {s : State} {D : Four} {m : Word32} {base : Word} (hm : Memory.wf s.mem = true)
    (hv : D.valid = true) (A : Tensor) {c : Host.Cell}
    (hc : c ∈ storeCells A (partialAccesses s .write (accessesOf s.cfg D m base))) :
    (s.mem.writeAll (storeCells A (partialAccesses s .write (accessesOf s.cfg D m base)))).read c.1 = c.2 :=
  read_writeAll_mem s.mem _ c hc (storeCells_partial_distinct hv A) hm

/-- After the stores of a faulting instruction the byte of each access is old, or admitted and new (R154). -/
theorem read_partial_old_or_new {s : State} {D : Four} {m : Word32} {base : Word} (hm : Memory.wf s.mem = true)
    (hv : D.valid = true) (A : Tensor) {a : Access} (ha : a ∈ accessesOf s.cfg D m base) :
    let M := s.mem.writeAll (storeCells A (partialAccesses s .write (accessesOf s.cfg D m base)))
    M.read a.address = s.mem.read a.address ∨
      (admitsData s.cfg .write a.address = true ∧ M.read a.address = A.byte a.index) := by
  by_cases hmade : a ∈ partialAccesses s .write (accessesOf s.cfg D m base)
  · exact .inr ⟨(mem_partialAccesses hmade).2, read_storeCells_partial hm hv A (List.mem_map_of_mem hmade)⟩
  · refine .inl (read_writeAll_other s.mem _ a.address (fun c hc heq => hmade ?_) hm)
    obtain ⟨b, hb, rfl⟩ := List.mem_map.mp hc
    rwa [← access_eq_of_address (accesses_distinct s.cfg m base hv) (mem_partialAccesses hb).1 ha heq]

/-- Settles O42: the judgement is a fault, and the state at the fault is that after the stores that were made. -/
theorem mstoreFaultsOnUnadmittedAddress : Obligations.MstoreFaultsOnUnadmittedAddress := by
  intro rs1 rs2 rd s D base hm hv hok hbad
  obtain ⟨bad, hcheck, hreported⟩ := checkAccesses_of_unadmitted (kind := .write) hv
    (fun a ha hadm => ⟨(hok a ha hadm).1, fun _ => (hok a ha hadm).2⟩) hbad
  refine ⟨_, exec_tlMstore_of_notAdmitted hv hcheck, rfl, rfl, hreported, fun i k hi hk hsel => ?bytes,
    (onlyMemory_stored hm fun c => storeCells_partial_selected hv _).drew 1024, rfl, rfl,
    _, rfl, cellSet_rising _, fun c hc => ?cells⟩
  case bytes =>
    exact read_partial_old_or_new hm hv (s.readT rs1)
      ((mem_accessesOf s.cfg s.storeMask base (sliceSize_pos hv) _).mpr ⟨i, k, hi, hk, hsel, rfl⟩)
  case cells =>
    have hcell := mem_of_mem_cellSet hc
    obtain ⟨hsel, hadm⟩ := storeCells_partial_selected hv _ hcell
    exact ⟨hsel, hadm, (read_storeCells_partial hm hv _ hcell).symm⟩

/-- Settles O41: the accesses are judged admitted, and the bytes are those of the completed store. -/
theorem mstoreStoresSelectedSlices : Obligations.MstoreStoresSelectedSlices := by
  intro rs1 rs2 rd s hm D base Selected
  refine ⟨encodeR_mask _ _ _ _ _ _, fun hv hadm htext => ?completes, fun hv => ?refused,
    fun hv hidem htext hbad => ?faults⟩
  case completes =>
    have hcheck := checkAccesses_of_allAdmitted hv hadm fun _ => htext
    have h := execTlMstore_eq_next_iff (rs1 := rs1).mpr ⟨hv, hcheck, rfl⟩
    refine ⟨_, h, fun i k hi hk hlt hbit => ?_, tlMstore_onlyMemory h hm, rfl⟩
    have hacc := (accessed_slice s.storeMask hi hk).trans ((selects_iff _ i).mpr ⟨hlt, hbit⟩)
    rw [← indexAddress_slice s.cfg D s.storeMask base hk]
    exact tlMstore_byte h hm hacc
  case refused => exact exec_tlMstore_of_invalid (Bool.eq_false_iff.mp hv)
  case faults =>
    obtain ⟨trap, hfault, -, -, ⟨a, hsel, hnot, hvalue⟩, -⟩ :=
      mstoreFaultsOnUnadmittedAddress rs1 rs2 rd s hm hv (fun a ha _ => ⟨hidem a ha, htext a ha⟩) hbad
    exact ⟨trap, a, hfault, hsel, hnot, hvalue⟩

/-! ### The laws of R157 -/

/-- Settles O46: the load reads each accessed element from the address the store put it at. -/
theorem storeThenLoadRoundTrip : Obligations.StoreThenLoadRoundTrip := by
  intro a b base desc base' desc' s t u hm ht hmask hbase hdesc hu i k hi hk hsel
  have hkeep := tlMstore_onlyMemory ht hm
  have hacc := (accessed_slice s.storeMask hi hk).trans hsel
  have hload : t.loadMask = s.storeMask := hmask.trans (hkeep.keepsCsrs .storeMask)
  have hshape : t.readX32 desc' = s.readX32 desc :=
    hdesc.trans (congrArg (BitVec.setWidth 32) (hkeep.keepsX desc))
  have hfrom : t.readX base' = s.readX base := hbase.trans (hkeep.keepsX base)
  rw [tlMload_byte hu (by rwa [hload, hshape]), hload, hshape, hfrom, hkeep.keepsCfg, tlMstore_byte ht hm hacc]

/-- Where every slice before slice `i` is selected, the rank of slice `i` is `i`. -/
theorem rank_of_all_selected {m : Word32} {i : Nat} (h : ∀ j < i, selects m j = true) : rank m i = i := by
  rw [rank, List.countP_eq_length.mpr fun j hj => h j (List.mem_range.mp hj), List.length_range]

/-- A mask that selects every slice of a tensor. -/
def SelectsAll (D : Four) (m : Word32) : Prop := ∀ i < D.d0, selects m i = true

theorem selectsAll_of_bits {D : Four} {m : Word32} (h32 : D.d0 ≤ 32) (h : ∀ i, i < D.d0 → m.getLsbD i = true) :
    SelectsAll D m := fun i hi => (selects_iff m i).mpr ⟨lt_of_lt_of_le hi h32, h i hi⟩

/-- The slice of an index below the number of elements is one of the tensor's. -/
theorem div_sliceSize_lt {D : Four} {e : Nat} (he : e < D.count) : e / D.sliceSize < D.d0 :=
  Nat.div_lt_of_lt_mul (by rwa [mul_comm, ← count_eq_slices])

theorem accessed_of_selectsAll {D : Four} {m : Word32} (hall : SelectsAll D m) {e : Nat} (he : e < D.count) :
    accessed D m e = true := by
  simp [accessed, he, hall _ (div_sliceSize_lt he)]

/-- With every slice selected the layouts agree: element `e` lies at `base + e`. -/
theorem indexAddress_of_selectsAll (c : Config) {D : Four} {m : Word32} (base : Word) (hall : SelectsAll D m) {e : Nat}
    (he : e < D.count) : indexAddress c D m base e = (base.toNat + e) % 2 ^ c.xlen.bits := by
  have hrank : rank m (e / D.sliceSize) = e / D.sliceSize :=
    rank_of_all_selected fun j hj => hall j (hj.trans (div_sliceSize_lt he))
  rw [indexAddress_eq]
  cases hl : c.memLayout <;> simp [accessOffset, hl, hrank, Nat.div_add_mod']

/-- With every slice selected a selected address is at an element's offset from the base. -/
theorem exists_offset_of_selectsAll {c : Config} {D : Four} {m : Word32} {base : Word} (hall : SelectsAll D m) {x : Nat}
    (hx : SelectedAddress c D m base x) : ∃ e < D.count, x = (base.toNat + e) % 2 ^ c.xlen.bits := by
  obtain ⟨i, k, hi, hk, -, rfl⟩ := hx
  have he := slice_lt hi hk
  exact ⟨_, he, by rw [← indexAddress_of_selectsAll c base hall he, indexAddress_slice c D m base hk]⟩

/-- Settles O47: every element is accessed, at its own offset from the base. -/
theorem fullMaskMovesArePlainCopies : Obligations.FullMaskMovesArePlainCopies := by
  refine ⟨fun rd rs1 rs2 s t h h32 hbits n hn => ?load, fun rs1 rs2 rd s t hm h h32 hbits => ?store⟩
  case load =>
    have hall := selectsAll_of_bits h32 hbits
    rw [tlMload_byte h (accessed_of_selectsAll hall hn), indexAddress_of_selectsAll _ _ hall hn]
  case store =>
    have hall := selectsAll_of_bits h32 hbits
    refine ⟨fun n hn => ?_, fun a ha => (tlMstore_onlyMemory h hm).keepsMem a fun hsel => ?_⟩
    · rw [← indexAddress_of_selectsAll _ _ hall hn, tlMstore_byte h hm (accessed_of_selectsAll hall hn)]
    · obtain ⟨n, hn, rfl⟩ := exists_offset_of_selectsAll hall hsel
      exact ha n hn rfl

end Sys2Proof.Machine

/-! The support subset: `lui` and `addi` (O48, O49), `bne` (O50), and the six Zicsr instructions on an implemented and on an
unimplemented CSR (O51 to O56), with one register as source and destination (O60). -/

namespace Sys2Proof.Machine

/-! ### `XLEN`-bit values and immediates over the integers (R12, R170) -/

/-- An integer put into an `XLEN`-bit register is the integer modulo `2^XLEN`. -/
theorem wrap_ofInt_toNat (x : Xlen) (n : Int) :
    ((x.wrap (BitVec.ofInt 64 n)).toNat : Int) = n % (2 ^ x.bits : Int) := by
  rw [wrap_toNat, BitVec.toNat_ofInt]
  cases x <;> simp only [Xlen.bits] <;> omega

theorem add_sextImm12 (w : Word) (imm : BitVec 12) :
    w + sextImm12 imm = BitVec.ofInt 64 ((w.toNat : Int) + imm.toInt) := by
  rw [BitVec.ofInt_add, BitVec.ofInt_natCast, BitVec.ofNat_toNat, BitVec.setWidth_eq]
  rfl

theorem branchTarget_eq (s : State) (offset : BitVec 13) :
    branchTarget s offset = s.cfg.xlen.wrap (BitVec.ofInt 64 (s.pc.toInt + offset.toInt)) := by
  rw [BitVec.ofInt_add, BitVec.ofInt_toInt]
  rfl

/-! ### `lui` and `addi` (R171, R172) -/

/-- An instruction that writes `x[rd]` and advances touches nothing else. -/
theorem onlyInteger_writeX (rd : XReg) (v : Word) (s : State) : OnlyInteger rd s (s.writeX rd v).advancePc where
  keepsX := fun r h => readX_writeX_other s rd r v h
  keepsT := fun r => by simp
  keepsCsrs := fun c => by simp
  keepsMem := fun a => by simp
  keepsEvents := by simp
  keepsCfg := by simp

/-- What writing `x[rd]` and advancing comes to, `rd = x0` or not. -/
theorem writeX_advancePc (rd : XReg) (v : Word) (s : State) :
    (rd ≠ 0 → (s.writeX rd v).advancePc.readX rd = s.cfg.xlen.wrap v) ∧
    (rd = 0 → (s.writeX rd v).advancePc.x = s.x) ∧
    OnlyInteger rd s (s.writeX rd v).advancePc ∧ Advanced s (s.writeX rd v).advancePc :=
  ⟨readX_writeX_same s rd v, by rintro rfl; rfl, onlyInteger_writeX rd v s, by simp [Advanced]⟩

/-- Settles O48: `luiValue` is the sign extension of the 32-bit number, and `x[rd]` holds its `XLEN` bits. -/
theorem luiLoadsUpperImmediate : Obligations.LuiLoadsUpperImmediate :=
  fun rd imm20 s => ⟨encodeU_mask _ _ _, _, rfl, writeX_advancePc rd (luiValue imm20) s⟩

/-- Settles O49: the 64-bit sum is that of the integers, and `x[rd]` holds it modulo `2^XLEN`. -/
theorem addiAddsModuloXlen : Obligations.AddiAddsModuloXlen := by
  intro rd rs1 imm s
  obtain ⟨hrd, hrest⟩ := writeX_advancePc rd (s.readX rs1 + sextImm12 imm) s
  refine ⟨encodeI_mask _ _ _ _ _, _, rfl, fun h => ?_, hrest⟩
  rw [hrd h, add_sextImm12, wrap_ofInt_toNat]

/-! ### `bne` (R173) -/

theorem exec_bne_taken {rs1 rs2 : XReg} {offset : BitVec 13} {s : State} (hne : s.readX rs1 ≠ s.readX rs2)
    (h4 : (branchTarget s offset).toNat % 4 = 0) :
    exec (.bne rs1 rs2 offset) s = .next (s.setPc (branchTarget s offset)) := by
  simp [exec, execBne, hne, low_bits_of_mod_four h4]

theorem exec_bne_misaligned {rs1 rs2 : XReg} {offset : BitVec 13} {s : State} (hne : s.readX rs1 ≠ s.readX rs2)
    (h4 : (branchTarget s offset).toNat % 4 ≠ 0) :
    exec (.bne rs1 rs2 offset) s =
      .fault (raise .instructionAddressMisaligned (branchTarget s offset) s) := by
  have hlow : (branchTarget s offset).extractLsb' 0 2 ≠ 0 := fun h => h4 (mod_four_of_low_bits h)
  simp only [exec, execBne, if_pos hne, if_pos hlow]

theorem exec_bne_not_taken {rs1 rs2 : XReg} {offset : BitVec 13} {s : State} (heq : s.readX rs1 = s.readX rs2) :
    exec (.bne rs1 rs2 offset) s = .next s.advancePc := by
  simp [exec, execBne, heq]

/-- An instruction that writes the pc alone touches nothing else. -/
theorem onlyInteger_setPc (rd : XReg) (v : Word) (s : State) : OnlyInteger rd s (s.setPc v) where
  keepsX := fun _ _ => rfl
  keepsT := fun _ => rfl
  keepsCsrs := fun c => setPc_csr s v c
  keepsMem := fun _ => rfl
  keepsEvents := rfl
  keepsCfg := rfl

/-- Settles O50, one of the three outcomes after the other. -/
theorem bneBranches : Obligations.BneBranches := by
  intro rs1 rs2 offset s
  dsimp only
  rw [← branchTarget_eq]
  refine ⟨encodeB_mask _ _ _ _ _, fun hne h4 => ?taken, exec_bne_misaligned, fun heq => ?goesOn⟩
  case taken => exact ⟨_, exec_bne_taken hne h4, wrap_wrap _ _, onlyInteger_setPc 0 _ s, rfl⟩
  case goesOn => exact ⟨_, exec_bne_not_taken heq, rfl, onlyInteger_setPc 0 _ s, rfl⟩

/-! ### The two kinds of Zicsr access: the swap and the update (R180 to R185) -/

/-- A form that always writes, and reads unless `rd = x0` (R180, R183). -/
theorem csrInsn_swap {csr : BitVec 12} {c : Csr} (h : Csr.ofAddress csr = some c) (i j : Instr) (rd : XReg)
    (v : Word32) (w : Bool) (f : Word32 → Word32) (s : State) :
    ∃ t, csrInsn i rd csr (rd != 0) true (fun _ => v) s = .next t ∧
      (rd ≠ 0 → t.readX rd = (s.csrValue c).setWidth 64) ∧ (c ≠ .xposeStatus → t.csr c = v) ∧
      (rd = 0 → t.x = s.x ∧ (c = .xposeStatus → t = s.advancePc)) ∧
      (rd ≠ 0 → c = .xposeStatus → csrInsn j rd csr true w f s = .next t) ∧ OnlyCsr rd c s t ∧ Advanced s t := by
  obtain ⟨t, ht, hread, hkeep, hcsr, -, hframe⟩ := csrInsn_some (i := i) (rd := rd) (r := rd != 0) (w := true)
    (f := fun _ => v) (s := s) h
  refine ⟨t, ht, fun hrd => hread (bne_iff_ne.mpr hrd) hrd, hcsr, fun hrd => ⟨hkeep (.inr hrd), ?unread⟩,
    ?asRead, hframe⟩
  case unread =>
    rintro rfl
    rw [csrInsn_status h, hrd] at ht
    exact next_of_eq ht
  case asRead =>
    rintro hrd rfl
    rw [← ht, csrInsn_status h, csrInsn_status h, bne_iff_ne.mpr hrd]

/-- A form that always reads, and writes what it makes of the old value unless `writes` is off (R181, R182, R184,
R185). -/
theorem csrInsn_update {csr : BitVec 12} {c : Csr} (h : Csr.ofAddress csr = some c) (i : Instr) (rd : XReg)
    (writes : Bool) (f : Word32 → Word32) (s : State) :
    ∃ t, csrInsn i rd csr true writes f s = .next t ∧
      (rd ≠ 0 → t.readX rd = (s.csrValue c).setWidth 64) ∧ (rd = 0 → t.x = s.x) ∧
      (c ≠ .xposeStatus → t.csr c = if writes then f (s.csr c) else s.csr c) ∧ OnlyCsr rd c s t ∧ Advanced s t := by
  obtain ⟨t, ht, hread, hkeep, hcsr, -, hframe⟩ := csrInsn_some (i := i) (rd := rd) (r := true) (w := writes)
    (f := f) (s := s) h
  exact ⟨t, ht, hread rfl, fun hrd => hkeep (.inr hrd), hcsr, hframe⟩

/-! ### The register forms (R180 to R182) -/

/-- Settles O51: `csrrw` is the swap with the low 32 bits of `x[rs1]`. -/
theorem csrrwSwaps : Obligations.CsrrwSwaps := by
  intro rd csr rs1 s
  rw [exec_csrrw, exec_csrrs]
  exact ⟨encodeI_mask _ _ _ _ _, fun c h => csrInsn_swap h _ _ rd _ _ _ s,
    fun h => csrInsn_illegalTrap h _ _ _ _ _ s⟩

/-- The write a register form suppresses for `rs1 = x0`, in the spelling of the rules. -/
theorem ite_bne_zero {α : Type} (r : XReg) (a b : α) : (if r != 0 then a else b) = if r = 0 then b else a := by
  simp only [bne_iff_ne, ne_eq, ite_not]

/-- Settles O52: `csrrs` is the update that sets the bits of `x[rs1]`. -/
theorem csrrsSetsBits : Obligations.CsrrsSetsBits := by
  intro rd csr rs1 s
  rw [exec_csrrs]
  refine ⟨encodeI_mask _ _ _ _ _, fun c h => ?_, fun h => csrInsn_illegalTrap h _ _ _ _ _ s⟩
  obtain ⟨t, ht, hread, hkeep, hcsr, hframe⟩ := csrInsn_update h _ rd _ _ s
  exact ⟨t, ht, hread, hkeep, fun hc _ => (hcsr hc).trans (ite_bne_zero _ _ _), hframe⟩

/-- Settles O53: `csrrc` is the update that clears the bits of `x[rs1]`. -/
theorem csrrcClearsBits : Obligations.CsrrcClearsBits := by
  intro rd csr rs1 s
  rw [exec_csrrc]
  refine ⟨encodeI_mask _ _ _ _ _, fun c h => ?_, fun h => csrInsn_illegalTrap h _ _ _ _ _ s⟩
  obtain ⟨t, ht, hread, hkeep, hcsr, hframe⟩ := csrInsn_update h _ rd _ _ s
  exact ⟨t, ht, hread, hkeep, fun hc _ => (hcsr hc).trans (ite_bne_zero _ _ _), hframe⟩

/-- An update made by a register form other than that of `x0`, on a plain CSR. -/
theorem csrInsn_update_plain {csr : BitVec 12} {c : Csr} (h : Csr.ofAddress csr = some c) (hc : c ≠ .xposeStatus)
    (i : Instr) {rd rs1 : XReg} (hrd : rd ≠ 0) (hrs1 : rs1 ≠ 0) (f : Word32 → Word32) (s : State) :
    ∃ t, csrInsn i rd csr true (rs1 != 0) f s = .next t ∧ t.readX rd = (s.csr c).setWidth 64 ∧
      t.csr c = f (s.csr c) := by
  obtain ⟨t, ht, hread, -, hcsr, -⟩ := csrInsn_update h i rd (rs1 != 0) f s
  refine ⟨t, ht, ?_, ?_⟩
  · rw [hread hrd, csrValue_plain s c hc]
  · rw [hcsr hc, if_pos (bne_iff_ne.mpr hrs1)]

/-- Settles O60: the update is a function of `x[rs1]` in the old state, whatever `rd` is. -/
theorem csrrsCsrrcTakeTheSourceFirst : Obligations.CsrrsCsrrcTakeTheSourceFirst := by
  intro r csr c s hr hcsr hc
  rw [exec_csrrs, exec_csrrc]
  exact ⟨csrInsn_update_plain hcsr hc _ hr hr _ s, csrInsn_update_plain hcsr hc _ hr hr _ s⟩

/-! ### The immediate forms (R183 to R185) -/

/-- Settles O54: `csrrwi` is the swap with the immediate. -/
theorem csrrwiWritesImmediate : Obligations.CsrrwiWritesImmediate := by
  intro rd csr uimm s
  rw [exec_csrrwi, exec_csrrs]
  refine ⟨encodeI_mask _ _ _ _ _, fun c h => ?_, fun h => csrInsn_illegalTrap h _ _ _ _ _ s⟩
  obtain ⟨t, ht, hread, hcsr, hrest⟩ := csrInsn_swap h _ _ rd _ _ _ s
  refine ⟨t, ht, hread, fun hc => ?_, hrest⟩
  rw [hcsr hc]
  exact BitVec.toNat_setWidth_of_le (by decide)

/-- Setting the bits of an immediate of 0 is making no write. -/
theorem ite_or_uimm (uimm : BitVec 5) (old : Word32) :
    (if uimm != 0 then old ||| uimm.setWidth 32 else old) = old ||| uimm.setWidth 32 := by
  obtain rfl | h := eq_or_ne uimm 0
  · exact BitVec.or_zero.symm
  · exact if_pos (bne_iff_ne.mpr h)

/-- Clearing the bits of an immediate of 0 is making no write. -/
theorem ite_andNot_uimm (uimm : BitVec 5) (old : Word32) :
    (if uimm != 0 then old &&& ~~~(uimm.setWidth 32) else old) = old &&& ~~~(uimm.setWidth 32) := by
  obtain rfl | h := eq_or_ne uimm 0
  · exact BitVec.and_allOnes.symm
  · exact if_pos (bne_iff_ne.mpr h)

/-- Settles O55: `csrrsi` is the update that sets the immediate's bits. -/
theorem csrrsiSetsBits : Obligations.CsrrsiSetsBits := by
  intro rd csr uimm s
  rw [exec_csrrsi]
  refine ⟨encodeI_mask _ _ _ _ _, fun c h => ?_, fun h => csrInsn_illegalTrap h _ _ _ _ _ s⟩
  obtain ⟨t, ht, hread, hkeep, hcsr, hframe⟩ := csrInsn_update h _ rd _ _ s
  refine ⟨t, ht, hread, hkeep, fun hc b hb => ?_, hframe⟩
  rw [hcsr hc, ite_or_uimm]
  simp [hb]

/-- Settles O56: `csrrci` is the update that clears the immediate's bits. -/
theorem csrrciClearsBits : Obligations.CsrrciClearsBits := by
  intro rd csr uimm s
  rw [exec_csrrci]
  refine ⟨encodeI_mask _ _ _ _ _, fun c h => ?_, fun h => csrInsn_illegalTrap h _ _ _ _ _ s⟩
  obtain ⟨t, ht, hread, hkeep, hcsr, hframe⟩ := csrInsn_update h _ rd _ _ s
  refine ⟨t, ht, hread, hkeep, fun hc b hb => ?_, hframe⟩
  rw [hcsr hc, ite_andNot_uimm]
  simp [hb]

end Sys2Proof.Machine

/-! Exceptions: a word of no row (O7), a fetch `MEM` does not admit (O9), and the precision of every trap (O12). -/

namespace Sys2Proof

/-! ### A word of no row (R201) -/

/-- A word that decodes matches a row, so a word of no row is rejected. -/
theorem decodeWord_reject_of_no_row {w : Word32} (hno : ∀ row ∈ opcodeTable, w &&& row.mask ≠ row.match') :
    ∃ why, decodeWord w = .reject why := by
  cases h : decodeWord w with
  | ok i =>
    obtain ⟨row, hrow, -, hm⟩ := exists_row_of_decodeWord h
    exact absurd hm (hno row hrow)
  | reject why => exact ⟨why, rfl⟩

end Sys2Proof

namespace Sys2Proof.Machine

/-- Settles O7: the fetched word is rejected, for whatever reason. -/
theorem wordOfNoRowRaisesIllegalInstruction : Obligations.WordOfNoRowRaisesIllegalInstruction := by
  intro s hf hno
  obtain ⟨why, hreject⟩ := decodeWord_reject_of_no_row hno
  exact step_illegalTrap_of_reject hf (Config.decode_of_reject ((decode_fetchBytes s).trans hreject))

/-! ### A fetch `MEM` does not admit (R204) -/

/-- `MEM` admits a fetch when it admits each of the four addresses. -/
theorem fetchAdmitted_iff (s : State) :
    s.fetchAdmitted = true ↔ ∀ k < 4, admitsFetch s.cfg (s.fetchAddress k) = true := by
  simp only [State.fetchAdmitted, Bool.and_eq_true, Nat.forall_lt_succ_right, Nat.not_lt_zero, IsEmpty.forall_iff,
    implies_true, true_and]

/-- Fetched addresses have `XLEN` bits, so they lie in the default `MEM` for either `XLEN` (R58). -/
theorem fetchAddress_lt (s : State) (k : Nat) : s.fetchAddress k < 2 ^ 64 := by
  have hbits : s.cfg.xlen.bits ≤ 64 := by cases s.cfg.xlen <;> decide
  exact (addr_lt _ _).trans_le (Nat.pow_le_pow_right Nat.two_pos hbits)

/-- The default `MEM` admits execution in the whole address space (D39). -/
theorem admitsFetch_of_default_mem {c : Config} (hc : c.mem = Config.default.mem) {a : Nat} (ha : a < 2 ^ 64) :
    admitsFetch c a = true := by
  have hregion : regionOf c a = some Region.everything := by
    rw [regionOf, hc]
    exact List.find?_cons_of_pos (by simpa [regionHolds, Region.everything] using ha)
  rw [admitsFetch, hregion]
  rfl

theorem step_of_unadmitted_fetch {s : State} (hrun : s.atHalt = false) (halign : s.pcAligned = true)
    (hadm : s.fetchAdmitted = false) : step s = .fault (raise .instructionAccessFault s.readPc s) := by
  have hfetch : s.fetch = .trap (raise .instructionAccessFault s.readPc s) := by
    simp [State.fetch, hrun, halign, hadm]
  rw [step, hfetch]

/-- Settles O9: one address not admitted is enough for the front end to raise; the default `MEM` holds every fetched
address. -/
theorem unadmittedFetchRaisesAccessFault : Obligations.UnadmittedFetchRaisesAccessFault := by
  refine ⟨fun s hrun halign ⟨k, hk, hno⟩ => ?unadmitted, fun s hmem => ?default⟩
  case unadmitted =>
    refine step_of_unadmitted_fetch hrun halign (Bool.eq_false_iff.mpr fun hadm => ?_)
    exact Bool.eq_false_iff.mp hno ((fetchAdmitted_iff s).mp hadm k hk)
  case default =>
    exact (fetchAdmitted_iff s).mpr fun k _ => admitsFetch_of_default_mem hmem (fetchAddress_lt s k)

/-! ### What a trap records and keeps (R208, R209) -/

/-- What the state at a fault keeps of the state before the step: all but the tensor registers, memory, the recorded
accesses and the draws (R154, R209). -/
structure AtFault (s t : State) : Prop where
  keepsPc : t.pc = s.pc
  keepsX : SameX s t
  keepsCsrs : SameCsrs s t
  keepsCfg : t.cfg = s.cfg

theorem AtFault.readPc_eq {s t : State} (h : AtFault s t) : t.readPc = s.readPc := by
  rw [State.readPc, h.keepsCfg, h.keepsPc, State.readPc]

theorem atFault_loadFaulted (rd : TReg) (acc : List Access) (s : State) : AtFault s (loadFaulted rd acc s) :=
  have hframe : OnlyTensor rd s (loadFaulted rd acc s) := onlyTensor_recordWrite rd _ _ _ s
  ⟨loadFaulted_pc rd acc s, hframe.keepsX, hframe.keepsCsrs, hframe.keepsCfg⟩

theorem atFault_stored_drew (cells : List Host.Cell) (n : Nat) (s : State) : AtFault s ((stored cells s).drew n) where
  keepsPc := rfl
  keepsX _ := rfl
  keepsCsrs c := by simp
  keepsCfg := rfl

/-- A fault of a step has one of the shapes of an instruction's faults, the front end's among them. -/
theorem step_fault {s : State} {f : Fault} (h : step s = .fault f) : FaultShape s f := by
  obtain ⟨-, hs⟩ | ⟨e, v, hs⟩ | ⟨-, i, -, hs⟩ := step_cases s <;> rw [hs] at h
  · cases h
  · cases h
    exact .unchanged e v
  · exact exec_fault h

/-- Every fault of a step is an exception raised in a state at the fault. -/
theorem exists_raise_of_step_fault {s : State} {f : Fault} (h : step s = .fault f) :
    ∃ e v t, f = raise e v t ∧ AtFault s t := by
  cases step_fault h with
  | unchanged e v => exact ⟨e, v, s, rfl, rfl, fun _ => rfl, fun _ => rfl, rfl⟩
  | load v rd acc => exact ⟨_, v, _, rfl, atFault_loadFaulted rd acc s⟩
  | store v cells => exact ⟨_, v, _, rfl, atFault_stored_drew cells 1024 s⟩

/-- Settles O12: every fault is raised in a state that keeps the pc, and the trap records the exception's own code. -/
theorem trapsArePrecise : Obligations.TrapsArePrecise := by
  intro s f h
  obtain ⟨e, v, t, rfl, hat⟩ := exists_raise_of_step_fault h
  refine ⟨?_, ?_, ?_, ?_, ?_, by cases e <;> rfl⟩ <;> rw [trapOf_raise]
  exacts [hat.readPc_eq, hat.keepsPc, hat.keepsX, hat.keepsCsrs, hat.keepsCfg]

end Sys2Proof.Machine

/-! A step from the fetch on: the end of the run (O11), the instruction at the pc (O5), and the word a load placed
there (O13). -/

namespace Sys2Proof

/-! ### What the host's view of the decoder says of the hart's (R82) -/

theorem decode_of_decodeTableWord {nbits w : Nat} {i : Instr} (h : decodeTableWord nbits w = some i) :
    decode (bytesOfWord (BitVec.ofNat 32 (w % 2 ^ nbits))) = .ok i := by
  rw [decodeTableWord] at h
  split at h
  next hd => rw [hd, Option.some.inj h]
  next => cases h

theorem Config.decode_of_implemented {c : Config} {bytes : List Byte} {i : Instr} (h : Sys2Proof.decode bytes = .ok i)
    (himpl : c.subext.implements i = true) : c.decode bytes = .ok i := by
  simp [Config.decode, h, himpl]

end Sys2Proof

namespace Sys2Proof.Machine

/-! ### The two ways a step goes on without a trap (R236, R238) -/

theorem atHalt_iff (s : State) : s.atHalt = true ↔ ∃ h, s.cfg.haltPc = some h ∧ s.cfg.xlen.wrap h = s.readPc := by
  cases hp : s.cfg.haltPc <;> simp [State.atHalt, hp]

theorem step_of_atHalt {s : State} (h : s.atHalt = true) : step s = .next s := by
  have hfetch : s.fetch = .halted := if_pos h
  rw [step, hfetch]

/-- Settles O11: the front end finds the run at its end before it looks at memory. -/
theorem runEndsAtHaltPc : Obligations.RunEndsAtHaltPc := fun s h hhalt hpc =>
  step_of_atHalt ((atHalt_iff s).mpr ⟨h, hhalt, hpc.symm⟩)

/-- Settles O5: no check of the front end raises, so the fetch is the decoded instruction. -/
theorem stepRunsTheDecodedInstruction : Obligations.StepRunsTheDecodedInstruction := by
  intro s i ⟨hrun, halign, hadm⟩ hdecode
  have hfetch : s.fetch = .instr i := by simp [State.fetch, hrun, halign, hadm, hdecode]
  rw [step, hfetch]

/-! ### Bytes placed at consecutive addresses (R50, R58) -/

theorem addr_ne_of_lt {x : Xlen} {i j : Nat} (hlt : i < j) (hnear : j - i < 2 ^ x.bits) : x.addr i ≠ x.addr j := by
  intro h
  have hdvd : 2 ^ x.bits ∣ j - i := (Nat.modEq_iff_dvd' hlt.le).mp h
  exact absurd (Nat.le_of_dvd (by omega) hdvd) (by omega)

/-- The cells that `placeBytes` writes. -/
def placedCells (x : Xlen) (a : Nat) (bs : List Byte) : List Host.Cell :=
  (bs.zipIdx a).map fun p => (x.addr p.2, p.1)

theorem placeBytes_eq_writeAll (x : Xlen) (m : Memory) (a : Nat) (bs : List Byte) :
    placeBytes x m a bs = m.writeAll (placedCells x a bs) := by
  induction bs generalizing m a with
  | nil => rfl
  | cons b bs ih => exact ih _ _

theorem mem_placedCells (x : Xlen) (a : Nat) {bs : List Byte} {k : Nat} (hk : k < bs.length) :
    (x.addr (a + k), bs[k]) ∈ placedCells x a bs :=
  List.mem_map.mpr ⟨(bs[k], a + k), List.mk_add_mem_zipIdx_iff_getElem?.mpr (List.getElem?_eq_getElem hk), rfl⟩

/-- Bytes that do not reach round the address space go to different addresses. -/
theorem placedCells_distinct {x : Xlen} (a : Nat) {bs : List Byte} (hlen : bs.length ≤ 2 ^ x.bits) :
    (placedCells x a bs).Pairwise fun c d => c.1 ≠ d.1 := by
  have hrising : (bs.zipIdx a).Pairwise fun p q => p.2 < q.2 := by
    have := List.pairwise_lt_range' (s := a) (n := bs.length)
    rwa [← List.zipIdx_map_snd a bs, List.pairwise_map] at this
  refine List.pairwise_map.mpr (hrising.imp_of_mem fun {p q} hp hq hlt => addr_ne_of_lt hlt ?_)
  have hp' := List.le_snd_of_mem_zipIdx hp
  have hq' := List.snd_lt_add_of_mem_zipIdx hq
  omega

theorem read_placeBytes {x : Xlen} {m : Memory} (hm : Memory.wf m = true) (a : Nat) {bs : List Byte}
    (hlen : bs.length ≤ 2 ^ x.bits) {k : Nat} (hk : k < bs.length) :
    (placeBytes x m a bs).read (x.addr (a + k)) = bs[k] := by
  rw [placeBytes_eq_writeAll]
  exact read_writeAll_mem m _ _ (mem_placedCells x a hk) (placedCells_distinct a hlen) hm

/-! ### A word placed at the pc (R50, R236; assumption logs 23, 33 and 36) -/

@[simp] theorem placeWord_pcAligned (s : State) (w : Word32) : (s.placeWord w).pcAligned = s.pcAligned := rfl

@[simp] theorem placeWord_fetchAdmitted (s : State) (w : Word32) :
    (s.placeWord w).fetchAdmitted = s.fetchAdmitted := rfl

@[simp] theorem placeWord_haltPc (s : State) (w : Word32) :
    (s.placeWord w).cfg.haltPc = if s.atHalt then none else s.cfg.haltPc := rfl

/-- Either the run was not at its end, or `HALT_PC` is cleared. -/
@[simp] theorem placeWord_atHalt (s : State) (w : Word32) : (s.placeWord w).atHalt = false := by
  refine Bool.eq_false_iff.mpr fun hend => ?_
  obtain ⟨h, hhalt, hpc⟩ := (atHalt_iff _).mp hend
  cases hs : s.atHalt with
  | true => simp [hs] at hhalt
  | false =>
    have hhalt' : s.cfg.haltPc = some h := by simpa [hs] using hhalt
    exact absurd ((atHalt_iff s).mpr ⟨h, hhalt', hpc⟩) (Bool.eq_false_iff.mp hs)

theorem fetchable_placeWord {s : State} (halign : s.pcAligned = true) (hadm : s.fetchAdmitted = true) (w : Word32) :
    Fetchable (s.placeWord w) :=
  ⟨placeWord_atHalt s w, (placeWord_pcAligned s w).trans halign, (placeWord_fetchAdmitted s w).trans hadm⟩

/-- The fetch sees the placed bytes at once. -/
theorem fetchBytes_placeWord {s : State} (hm : Memory.wf s.mem = true) (w : Word32) :
    (s.placeWord w).fetchBytes = bytesOfWord w := by
  have hlen : (bytesOfWord w).length ≤ 2 ^ s.cfg.xlen.bits := by
    cases s.cfg.xlen <;> simp [bytesOfWord, Xlen.bits]
  have hbyte (k : Nat) (hk : k < 4) :
      (s.placeWord w).mem.read ((s.placeWord w).fetchAddress k) = (bytesOfWord w)[k] :=
    read_placeBytes hm s.readPc.toNat hlen hk
  simp [State.fetchBytes, hbyte, bytesOfWord]

/-- Settles O13: the fetched bytes are the placed word's, which this hart decodes to the instruction. -/
theorem placedWordRuns : Obligations.PlacedWordRuns := by
  intro s w i hm halign hadm hword himpl
  refine stepRunsTheDecodedInstruction _ i (fetchable_placeWord halign hadm _) ?_
  refine Config.decode_of_implemented ?_ himpl
  exact (congrArg decode (fetchBytes_placeWord hm _)).trans (decode_of_decodeTableWord hword)

end Sys2Proof.Machine

/-! Decoding and encoding are inverse to each other (O2, O3), sample words of the spec's vectors (O4), a pc that is no
multiple of 4 (O10), and the invariant of every step (O16). -/

namespace Sys2Proof

/-! ### Decoding what was encoded -/

/-- A well-formed branch has an even offset (R170). -/
theorem wellFormed_bne_iff {rs1 rs2 : XReg} {offset : BitVec 13} :
    (Instr.bne rs1 rs2 offset).wellFormed = true ↔ offset.getLsbD 0 = false := by
  simp [Instr.wellFormed]

/-- The fixed fields of an instruction's word select its constructor, and the operand fields come back. -/
theorem decodeWord_encode {i : Instr} (hi : i.wellFormed = true) : decodeWord (encode i) = .ok i := by
  cases i with
  | tlXpose01 | tlXpose02 | tlXpose03 | tlXpose12 | tlXpose13 | tlXpose23 =>
    simp [encode, decodeWord, decodeCustom2, decodeXpose]
  | tlConcat0 | tlConcat1 | tlConcat2 => simp [encode, decodeWord, decodeCustom2, decodeConcat]
  | tlAddi | tlMload | tlMstore => simp [encode, decodeWord, decodeCustom2]
  | lui | addi => simp [encode, decodeWord]
  | bne => simpa [encode, decodeWord] using immBOf_encodeB _ _ _ _ _ (wellFormed_bne_iff.mp hi)
  | csrrw | csrrs | csrrc | csrrwi | csrrsi | csrrci => simp [encode, decodeWord, decodeZicsr]

/-- Settles O2: the bytes of a word decode as the word does. -/
theorem decodeOfEncodeIsTheInstruction : Obligations.DecodeOfEncodeIsTheInstruction := fun i hi =>
  ⟨decodeWord_encode hi, (decode_bytesOfWord (encode i)).trans (decodeWord_encode hi)⟩

/-! ### What decodes is well-formed -/

/-- Bit 0 of the offset a B-format word holds is 0 (R170). -/
theorem immBOf_getLsbD_zero (w : Word32) : (immBOf w).getLsbD 0 = false := by
  rw [immBOf, BitVec.getLsbD_append]; rfl

theorem decodeWord_of_bne_fields {w : Word32} (ho : opcodeOf w = 0b1100011) (h3 : funct3Of w = 0b001) :
    decodeWord w = .ok (.bne (rs1Of w) (rs2Of w) (immBOf w)) := by
  simp [decodeWord, ho, h3]

/-- A word that decodes to a branch has the branch's fixed fields, so its offset is the one the format holds. -/
theorem wellFormed_of_decodeWord_bne {w : Word32} {rs1 rs2 : XReg} {offset : BitVec 13}
    (h : decodeWord w = .ok (.bne rs1 rs2 offset)) : (Instr.bne rs1 rs2 offset).wellFormed = true := by
  have hw : encodeB offset rs2 rs1 0b001 0b1100011 = w := encode_of_decodeWord h
  have hfields := decodeWord_of_bne_fields (hw ▸ opcodeOf_encodeB ..) (hw ▸ funct3Of_encodeB ..)
  injection h.symm.trans hfields with hinstr
  injection hinstr with _ _ hoffset
  rw [wellFormed_bne_iff, hoffset, immBOf_getLsbD_zero]

theorem wellFormed_of_decodeWord {w : Word32} {i : Instr} (h : decodeWord w = .ok i) : i.wellFormed = true := by
  cases i with
  | bne => exact wellFormed_of_decodeWord_bne h
  | _ => rfl

/-- Settles O3; only a branch could be ill-formed. -/
theorem encodeOfDecodeIsTheWord : Obligations.EncodeOfDecodeIsTheWord := fun _ _ h =>
  ⟨wellFormed_of_decodeWord h, encode_of_decodeWord h⟩

/-- Settles O4: nine closed words, which the decoder evaluates. -/
theorem sampleWordsDecode : Obligations.SampleWordsDecode := by
  unfold Obligations.SampleWordsDecode
  decide

end Sys2Proof

namespace Sys2Proof.Machine

/-! ### A pc that is no multiple of 4 (U26; assumption log 24) -/

theorem step_of_misaligned_pc {s : State} (hrun : s.atHalt = false) (halign : s.pcAligned = false) :
    step s = .fault (raise .instructionAddressMisaligned s.readPc s) := by
  have hfetch : s.fetch = .trap (raise .instructionAddressMisaligned s.readPc s) := by
    simp [State.fetch, hrun, halign]
  rw [step, hfetch]

/-- Settles O10: the front end looks at the pc before it looks at `MEM`. -/
theorem misalignedPcRaisesMisaligned : Obligations.MisalignedPcRaisesMisaligned := fun _ hrun hpc =>
  step_of_misaligned_pc hrun (beq_false_of_ne hpc)

/-! ### The invariant under each update of the state -/

/-- The invariant looks at the parameters, the integer registers, the pc, memory and the recorded accesses alone. -/
theorem State.Inv.congr {s t : State} (h : s.Inv) (hcfg : t.cfg = s.cfg) (hx : t.x = s.x) (hpc : t.pc = s.pc)
    (hmem : t.mem = s.mem) (hevents : t.events = s.events) : t.Inv where
  mem_wf := hmem ▸ h.mem_wf
  mem_in_space := by rw [hmem, hcfg]; exact h.mem_in_space
  pc_width := by rw [hpc, hcfg]; exact h.pc_width
  pc_aligned := hpc ▸ h.pc_aligned
  x_width := by rw [hx, hcfg]; exact h.x_width
  x0_zero := by rw [hx]; exact h.x0_zero
  events_sets := hevents ▸ h.events_sets

theorem State.Inv.writeT {s : State} (h : s.Inv) (rd : TReg) (A : Tensor) : (s.writeT rd A).Inv :=
  h.congr rfl rfl rfl rfl rfl

theorem State.Inv.drew {s : State} (h : s.Inv) (n : Nat) : (s.drew n).Inv := h.congr rfl rfl rfl rfl rfl

theorem State.Inv.writeCsr {s : State} (h : s.Inv) (c : Csr) (v : Word32) : (s.writeCsr c v).Inv :=
  h.congr (writeCsr_cfg s c v) (writeCsr_x s c v) (writeCsr_pc s c v) (writeCsr_mem s c v) (writeCsr_events s c v)

theorem State.Inv.afterCsrRead {s : State} (h : s.Inv) (c : Csr) : (s.afterCsrRead c).Inv :=
  h.congr (afterCsrRead_cfg s c) (afterCsrRead_x s c) (afterCsrRead_pc s c) (afterCsrRead_mem s c)
    (afterCsrRead_events s c)

/-- A new pc of `XLEN` bits has to be a multiple of 4, nothing more. -/
theorem State.Inv.setPc {s : State} (h : s.Inv) {v : Word} (hv : (s.cfg.xlen.wrap v).toNat % 4 = 0) :
    (s.setPc v).Inv :=
  { h with pc_width := wrap_wrap _ v, pc_aligned := hv }

theorem State.Inv.advancePc {s : State} (h : s.Inv) : s.advancePc.Inv :=
  h.setPc (wrap_pc_add_four _ _ h.pc_aligned)

/-- A write to `x[rd]` stores `XLEN` bits, and never to the slot of `x0` (R21). -/
theorem State.Inv.writeX {s : State} (h : s.Inv) (rd : XReg) (v : Word) : (s.writeX rd v).Inv := by
  by_cases hrd : rd = 0
  · exact hrd ▸ h
  have hslot : rd.toNat ≠ 0 := fun e => hrd (BitVec.eq_of_toNat_eq e)
  rw [writeX_of_ne s rd v hrd]
  refine { h with x_width := fun r => ?_, x0_zero := ?_ }
  · by_cases hr : rd.toNat = r.toNat
    · simp [hr]
    · simpa [hr] using h.x_width r
  · simpa [hslot] using h.x0_zero

/-- What is recorded is a set in its one form (R67). -/
theorem State.Inv.record {s : State} (h : s.Inv) (kind : AccessKind) (cells : List Host.Cell) :
    (s.record kind cells).Inv :=
  { h with events_sets := List.forall_mem_cons.mpr ⟨cellSet_rising cells, h.events_sets⟩ }

/-- Every address memory lists after several writes is a written one or was listed before. -/
theorem mem_writeAll {m : Memory} {cells : List Host.Cell} {c : Host.Cell} (h : c ∈ m.writeAll cells) :
    c ∈ m ∨ c ∈ cells := by
  induction cells generalizing m with
  | nil => exact .inl h
  | cons d cells ih =>
    obtain hwrite | hrest := ih (m := m.write d.1 d.2) h
    · exact (mem_write hwrite).imp_right fun e : c = d => List.mem_cons.mpr (.inl e)
    · exact .inr (List.mem_cons_of_mem d hrest)

/-- Stores in the address space keep memory canonical and inside the address space. -/
theorem State.Inv.stored {s : State} (h : s.Inv) {cells : List Host.Cell}
    (hcells : ∀ c ∈ cells, c.1 < 2 ^ s.cfg.xlen.bits) : (stored cells s).Inv :=
  { h.record .write cells with
    mem_wf := wf_writeAll s.mem cells h.mem_wf
    mem_in_space := fun c hc => (mem_writeAll hc).elim (h.mem_in_space c) (hcells c) }

/-! ### The invariant under every step -/

/-- Every shape of a next state is made of updates that keep the invariant. -/
theorem State.Inv.exec {i : Instr} {s t : State} (h : s.Inv) (hexec : exec i s = .next t) : t.Inv := by
  cases exec_next hexec with
  | tensor rd A n => exact ((h.writeT rd A).drew n).advancePc
  | load rd A n cells => exact (((h.record .read cells).writeT rd A).drew n).advancePc
  | store cells hcells => exact (h.stored hcells).advancePc
  | integer rd v => exact (h.writeX rd v).advancePc
  | branch v hv => exact h.setPc (hv h.pc_aligned)
  | csr c rd r w v =>
    have hread := (h.afterCsrRead c).writeX rd ((s.csrValue c).setWidth 64)
    cases r <;> cases w
    exacts [h.advancePc, (h.writeCsr c v).advancePc, hread.advancePc, (hread.writeCsr c v).advancePc]

/-- Settles O16: the run has ended and the state is the same, or the step is an instruction's execution. -/
theorem invariantIsKept : Obligations.InvariantIsKept := by
  intro s t hinv hstep
  obtain ⟨-, hs⟩ | ⟨e, v, hs⟩ | ⟨-, i, -, hs⟩ := step_cases s <;> rw [hs] at hstep
  · rw [next_of_eq hstep]; exact hinv
  · cases hstep
  · exact hinv.exec hstep

end Sys2Proof.Machine
